-- ==== Sys2Proof/Word.lean ====
section
/-! DEFINITION. The word types of the block: the byte, the two value containers, and the bit slice of the notation.

Every quantity is an unsigned integer (R13, R210); nothing here is signed. -/

namespace Sys2Proof

/-- One byte of a buffer, bit 7 the most significant (R13). -/
abbrev Byte := BitVec 8

/-- The container of Format A: an unsigned integer of 32 bits (R8). -/
abbrev ValueA := BitVec 32

/-- The container of Format B: an unsigned integer of 16 bits (R8). -/
abbrev ValueB := BitVec 16

/-- `x[hi:lo]`, both ends included, as an unsigned integer of `hi - lo + 1` bits (R13). -/
def slice (x hi lo : Nat) : Nat := (x >>> lo) % 2 ^ (hi + 1 - lo)

end Sys2Proof
end

