-- ==== Sys2Proof/Config.lean ====
section
/-! DEFINITION. What the block fixes once (the two formats and the constants of `00_scope.md`), and the one free value.

`BUF_LEN` and `OFFSET_W`, which the source leaves open (R9), are not here: the length of a buffer comes with the buffer
(`Machine.Buffer.len`), and an offset is a natural number. -/

namespace Sys2Proof

/-- The two instances of the one generic algorithm: Format A is `codec_A`, Format B is `codec_B` (R2, R6, R11).
There is no third format (90_conflicts.md C5). -/
inductive Format where
  | A
  | B
deriving DecidableEq, Repr

/-- `H`, the header width: 2 for Format A and 1 for Format B (R6). -/
def Format.headerBits : Format → Nat
  | .A => 2
  | .B => 1

/-- `maxBytes(H) = 2^H` (R7). -/
def Format.maxBytes (f : Format) : Nat := 2 ^ f.headerBits

/-- `maxValueForLength(H, L) = 2^(8*L - H) - 1` (R7). -/
def Format.maxValueForLength (f : Format) (len : Nat) : Nat := 2 ^ (8 * len - f.headerBits) - 1

/-- `absoluteMax(H) = maxValueForLength(H, maxBytes(H))` (R7). -/
def Format.absoluteMax (f : Format) : Nat := f.maxValueForLength f.maxBytes

/-- `W(H)`, the width of the container (R8). -/
def Format.containerWidth : Format → Nat
  | .A => 32
  | .B => 16

/-- FREE VALUE. The byte that index `i` of the buffer handed over as number `serial` holds before anything has written it
(R260, R261, 93_implementation_defined.md U11: any value; the model does not choose 0). It has no body, so nothing can
evaluate it, and what is proved of it is proved for every value (log entry 2).

DESIGN CHOICE (log entry 18), unsafe for a claim that compares two runs: R261 leaves open how the unwritten bytes of two runs are
related, and here they depend on `serial` and `i` alone. Since `State.reset` starts the hand-over count at 0, the k-th buffers of
any two runs from reset hold equal unwritten bytes. -/
opaque Config.initialByte (serial i : Nat) : Byte

end Sys2Proof
end

