-- ==== Sys2Proof/Syntax.lean ====
section
/-! DEFINITION. The instructions (one constructor per row of `spec/opcode_table.json`) and the words that present them.

The table holds two kinds of rows (30_encoding.md): the eight commands a host can issue, and the six wire forms, which are the
encodings that `ENC` writes and `DLEN` and `DEC` read. Operand widths stand in the types, so a value that is too wide for its
container and a payload that is too wide for its form cannot be written down (R8, R72, R73, R86). -/

namespace Sys2Proof

inductive Instr where
  /-- `len = ELEN.A value` (R101). -/
  | elenA (value : ValueA)
  /-- `len = ENC.A value, [buffer+offset]` (R122). -/
  | encA (value : ValueA) (buffer offset : Nat)
  /-- `len = DLEN.A [buffer+offset]` (R151). -/
  | dlenA (buffer offset : Nat)
  /-- `(value, n) = DEC.A [buffer+offset]` (R172). -/
  | decA (buffer offset : Nat)
  /-- `len = ELEN.B value` (R102). -/
  | elenB (value : ValueB)
  /-- `len = ENC.B value, [buffer+offset]` (R123). -/
  | encB (value : ValueB) (buffer offset : Nat)
  /-- `len = DLEN.B [buffer+offset]` (R152). -/
  | dlenB (buffer offset : Nat)
  /-- `(value, n) = DEC.B [buffer+offset]` (R173). -/
  | decB (buffer offset : Nat)
  /-- Wire form A1, one byte, 6 payload bits (R72). -/
  | a1 (payload : BitVec 6)
  /-- Wire form A2, two bytes, 14 payload bits (R72). -/
  | a2 (payload : BitVec 14)
  /-- Wire form A3, three bytes, 22 payload bits (R72). -/
  | a3 (payload : BitVec 22)
  /-- Wire form A4, four bytes, 30 payload bits (R72). -/
  | a4 (payload : BitVec 30)
  /-- Wire form B1, one byte, 7 payload bits (R73). -/
  | b1 (payload : BitVec 7)
  /-- Wire form B2, two bytes, 15 payload bits (R73). -/
  | b2 (payload : BitVec 15)
deriving DecidableEq, Repr

/-- A command as the host presents it (R24, R84): the code `cmd[2:0]`, whose bit 2 is `fmt` and whose bits 1 and 0 are `op`, and
the operand fields. Every command has every field; an operation ignores the fields it does not use (R85). `buffer` is the name
of one of the host's buffers, `offset` a byte index in it. -/
structure Command where
  cmd : BitVec 3
  value : BitVec 32
  buffer : Nat
  offset : Nat
deriving DecidableEq, Repr

/-- What presents an instruction: a command, or the bytes of an encoding read under a format. The bytes do not say which format
they are in (R60, R75), so the format stands beside them. -/
inductive Words where
  | command (c : Command)
  | encoding (f : Format) (bytes : List Byte)
deriving DecidableEq, Repr

/-- Why words present no instruction. -/
inductive Reject where
  /-- A Format B command that uses its value has a value of more than 16 bits; such a value cannot be presented to `codec_B`
  (R86, 91_not_in_source.md N13). -/
  | valueTooWide
  /-- There are fewer bytes than byte 0 says the encoding has, or no byte at all (R75, R79). -/
  | truncated
  /-- Bytes are left over after the one encoding (R70, R75). -/
  | trailingBytes
deriving DecidableEq, Repr

end Sys2Proof
end

