-- ==== Sys2Proof/Machine/State.lean ====
section
/-! DEFINITION. The state, and the reasons a step can stop.

The codec has no state of its own: no register, no program counter, no flag, no control register, no latched result (R20 to R23,
R26, R29). What a run changes is the host's: its buffers (R28), the moves it has still to make (R274, R275) and the results it
has been given (R25 to R27, R274). `INVENTORY.md` lists each field with its rule and its value at reset. -/

namespace Sys2Proof.Machine

/-- The bytes of a buffer that something has written, by index: a list of (index, byte) pairs with the indices strictly rising
(`Memory.wf` in `Machine/Memory.lean`). -/
abbrev Memory := List Host.Cell

/-- A buffer the host owns (R28, R40): `BUF_LEN` bytes, indexed from 0. `serial` numbers the hand-overs, so that nothing
ties the free bytes of two buffers of one run together (log entry 3; of two runs, log entry 18). -/
structure Buffer where
  len : Nat
  serial : Nat
  cells : Memory
deriving DecidableEq, Repr

/-- `DecodeResult`, "the sole data entity" (R27). -/
structure DecodeResult (w : Nat) where
  value : BitVec w
  bytesRead : Nat
deriving DecidableEq, Repr

/-- What an operation gives back to the host (R25, R27). -/
inductive Result where
  /-- `len`, of `ELEN`, `ENC` (0 means overflow) and `DLEN` (R25). -/
  | len (n : Nat)
  /-- The `DecodeResult` of Format A (R172). -/
  | decodedA (r : DecodeResult 32)
  /-- The `DecodeResult` of Format B (R173). -/
  | decodedB (r : DecodeResult 16)
deriving DecidableEq, Repr

/-- What the host can do, one move at a time (R11, R274, R275). -/
inductive HostMove where
  /-- The host hands over a buffer of `len` bytes under a name; its bytes are whatever the host holds there (R261). -/
  | provide (buffer len : Nat)
  /-- The host writes one byte of its own buffer between commands (R275). -/
  | write (buffer index : Nat) (v : Byte)
  /-- The host issues a command (R24). -/
  | issue (c : Command)
deriving DecidableEq, Repr

/-- Why the machine stops with a fault. There is no constructor: the block has no trap, detects no out-of-bounds access and
reports overflow as a result (R230 to R232, R236; D9: a fault "would claim a detection that does not exist"). -/
inductive Fault where
deriving DecidableEq, Repr

/-- Why the model gives a step no outcome. -/
inductive Refusal where
  /-- Raised by no arm of this model: every instruction has its meaning. -/
  | notModelled (mnemonic : String)
  /-- Raised by `ENC`, `DLEN` and `DEC` where the footprint leaves the buffer (R47, R48, D9: undefined in the source, and the
  model refuses). Safe: nothing is proved of such a run. -/
  | outOfBounds
  /-- Raised by `step` for a command that cannot be presented to the codec (R86). Safe. -/
  | notPresentable (r : Reject)
  /-- Raised by `step` where the host's own write leaves the host's own buffer, which no rule speaks of. Safe. -/
  | hostOutOfBounds
deriving DecidableEq, Repr

structure State where
  /-- The host's buffers by name, names strictly rising (R28, R40, R41). -/
  buffers : List (Nat × Buffer)
  /-- How many buffers the host has handed over so far: the counter that free bytes are drawn by. The model's own field
(DESIGN CHOICE, log entries 3 and 18). -/
  provided : Nat
  /-- The moves the host has still to make, the next one first (R21, R274). -/
  moves : List HostMove
  /-- The results delivered to the host, the earliest first (R26, R274). No operation reads them. -/
  results : List Result
deriving DecidableEq, Repr

/-- R260, R261: the codec is idle and has nothing to reset; the host has handed over no buffer, has no move pending and has been
given no result. The bytes of a buffer are not reset: they are free until written (log entries 1 and 2). That the
count of hand-overs starts at 0 gives two runs from reset the same free bytes (log entry 18, DESIGN CHOICE). -/
def State.reset : State where
  buffers := []
  provided := 0
  moves := []
  results := []

end Sys2Proof.Machine
end

