-- ==== Sys2Proof/Machine/Memory.lean ====
section
/-! DEFINITION. Tables keyed by natural numbers in one canonical form, and the bytes of the buffers (20_memory.md).

A table holds the written bytes of a buffer, and the buffers by name. -/

namespace Sys2Proof.Machine

/-- The entry of a key. -/
def tableGet {α : Type} : List (Nat × α) → Nat → Option α
  | [], _ => none
  | (k, x) :: rest, key => if k = key then some x else tableGet rest key

/-- The table with one entry set, the keys kept rising. -/
def tableSet {α : Type} : List (Nat × α) → Nat → α → List (Nat × α)
  | [], key, v => [(key, v)]
  | (k, x) :: rest, key, v =>
    if key = k then (key, v) :: rest
    else if key < k then (key, v) :: (k, x) :: rest
    else (k, x) :: tableSet rest key v

/-- The keys rise strictly. -/
abbrev tableSorted {α : Type} (t : List (Nat × α)) : Prop := t.Pairwise fun x y => x.1 < y.1

/-- The canonical form of a memory. An unlisted index holds no listed value (`tableGet` answers `none`), and a byte is never `none`,
so that no entry equals what an unlisted index reads as. -/
abbrev Memory.wf (m : Memory) : Prop := tableSorted m

/-- The byte at an index of a buffer. An unlisted index in bounds reads as the free value `Config.initialByte` (R261); an index at
or above `BUF_LEN` has no byte (R45, R47). -/
def Buffer.byteAt (b : Buffer) (i : Nat) : Option Byte :=
  if i < b.len then some ((tableGet b.cells i).getD (Config.initialByte b.serial i)) else none

/-- `BUF_LEN` of the buffer a command names (R9); a name the host has handed over nothing under has no bytes. -/
def State.bufLen (s : State) (buffer : Nat) : Nat :=
  match tableGet s.buffers buffer with
  | some b => b.len
  | none => 0

/-- `MemRead(addr, 1)` (R45): the current content, nothing changed; `none` where `addr >= BUF_LEN`. -/
def memRead (s : State) (buffer addr : Nat) : Option Byte :=
  (tableGet s.buffers buffer).bind fun b => b.byteAt addr

/-- `MemWrite(addr, 1, v)` (R46): that byte set and every other as it was; `none` where `addr >= BUF_LEN`. -/
def memWrite (s : State) (buffer addr : Nat) (v : Byte) : Option State :=
  match tableGet s.buffers buffer with
  | some b =>
    if addr < b.len then
      some { s with buffers := tableSet s.buffers buffer { b with cells := tableSet b.cells addr v } }
    else none
  | none => none

/-- `n` reads at `addr, addr + 1, ...`, each byte once (R44, R52). `none` where one of them is out of bounds. -/
def readBytes (s : State) (buffer : Nat) : Nat → Nat → Option (List Byte)
  | _, 0 => some []
  | addr, n + 1 =>
    (memRead s buffer addr).bind fun c => (readBytes s buffer (addr + 1) n).map (c :: ·)

/-- The bytes written at `addr, addr + 1, ...`, each once (R44, R52). `none` where one of them is out of bounds: the operation is
then refused whole (R47), so no part of it lands. -/
def writeBytes (s : State) (buffer : Nat) : Nat → List Byte → Option State
  | _, [] => some s
  | addr, v :: vs => (memWrite s buffer addr v).bind fun t => writeBytes t buffer (addr + 1) vs

/-- The host hands over a buffer under a name: a new hand-over number, nothing written yet (R261; log entries 3
and 18). -/
def State.provide (s : State) (buffer len : Nat) : State :=
  { s with buffers := tableSet s.buffers buffer ⟨len, s.provided, []⟩, provided := s.provided + 1 }

end Sys2Proof.Machine
end

