-- ==== Sys2Proof/Machine/Ops.lean ====
section
/-! DEFINITION. The parts of the block as pure functions, under the spec's own names (R12, R15), and the delivery of a result.

All arithmetic is in the naturals, where the rules define it and where it loses no bit (R14, R210, R211); a decoded value is
narrowed to its container once, at the end (R171, R177).

There is no exception to take and none to return from: the block has no trap mechanism (R236, R237). -/

namespace Sys2Proof.Machine

/-- `encodedLength_H(value)`, the length selector (R100): 0 where the value is above `absoluteMax(H)`, otherwise the least `L` in
`1 .. maxBytes(H)` that can hold it. -/
def encodedLength (f : Format) (value : Nat) : Nat :=
  if f.absoluteMax < value then 0
  else ((List.range' 1 f.maxBytes).find? fun len => decide (value ≤ f.maxValueForLength len)).getD 0

/-- `E = ((L - 1) << (8*L - H)) | value`, the encoding as one number (R71, R120). -/
def encodingNumber (f : Format) (len value : Nat) : Nat :=
  ((len - 1) <<< (8 * len - f.headerBits)) ||| value

/-- `pack(H, L, value)`, the `payload_packer` (R120): byte `i` is `(E >> (8*(L - 1 - i))) & 0xFF`. -/
def pack (f : Format) (len value : Nat) : List Byte :=
  (List.range len).map fun i => BitVec.ofNat 8 ((encodingNumber f len value >>> (8 * (len - 1 - i))) &&& 0xFF)

/-- What the `header_extractor` makes of a first byte (R150). -/
structure Header where
  selector : Nat
  len : Nat
  p0 : Nat
deriving DecidableEq, Repr

/-- `extract(H, b0)`, the `header_extractor` (R150). -/
def extract (f : Format) (b0 : Byte) : Header where
  selector := b0.toNat >>> (8 - f.headerBits)
  len := (b0.toNat >>> (8 - f.headerBits)) + 1
  p0 := b0.toNat &&& (2 ^ (8 - f.headerBits) - 1)

/-- `assemble(p0, bytes)`, the `big_endian_assembler` (R170). -/
def assemble (p0 : Nat) (bytes : List Byte) : Nat :=
  bytes.foldl (fun value c => (value <<< 8) ||| c.toNat) p0

/-- The result of a completed operation goes to the host (R26). -/
def State.deliver (s : State) (r : Result) : State := { s with results := s.results ++ [r] }

end Sys2Proof.Machine
end

