-- ==== Sys2Proof/Machine/Flags.lean ====
section
/-! DEFINITION. The one condition the block reports. It has no flags and no condition codes (R22): overflow is carried in the result
itself. -/

namespace Sys2Proof.Machine

/-- `overflow` is by definition `len = 0` on the result of `ELEN` or `ENC` (R22, R230). -/
def overflowed (len : Nat) : Bool := len == 0

end Sys2Proof.Machine
end

