-- ==== Sys2Proof/Machine/Operands.lean ====
section
/-! DEFINITION. The one addressing mode, the footprints of the operations and their preconditions (R44, R48, R50). -/

namespace Sys2Proof.Machine

/-- `count` consecutive bytes of a buffer: byte `i` is at `start + i`, computed in the naturals, so an address never wraps (R44). -/
structure Span where
  buffer : Nat
  start : Nat
  count : Nat
deriving DecidableEq, Repr

/-- No byte. -/
def Span.empty : Span := ⟨0, 0, 0⟩

/-- A byte of a buffer is in the span. -/
def Span.has (p : Span) (buffer addr : Nat) : Bool :=
  buffer == p.buffer && (decide (p.start ≤ addr) && decide (addr < p.start + p.count))

/-- The bytes `DEC` reads: as many as the byte at `offset` says (R50); only that byte is asked for where it is out of bounds. -/
def decodeSpan (f : Format) (s : State) (buffer offset : Nat) : Span :=
  match memRead s buffer offset with
  | some b0 => ⟨buffer, offset, (extract f b0).len⟩
  | none => ⟨buffer, offset, 1⟩

/-- The bytes an operation reads (R50). A wire form stands for bytes already read, and touches no buffer. -/
def readSpan (s : State) : Instr → Span
  | .elenA _ => Span.empty
  | .encA _ _ _ => Span.empty
  | .dlenA buffer offset => ⟨buffer, offset, 1⟩
  | .decA buffer offset => decodeSpan .A s buffer offset
  | .elenB _ => Span.empty
  | .encB _ _ _ => Span.empty
  | .dlenB buffer offset => ⟨buffer, offset, 1⟩
  | .decB buffer offset => decodeSpan .B s buffer offset
  | .a1 _ => Span.empty
  | .a2 _ => Span.empty
  | .a3 _ => Span.empty
  | .a4 _ => Span.empty
  | .b1 _ => Span.empty
  | .b2 _ => Span.empty

/-- The bytes an operation writes: `offset .. offset+L-1` with `L = encodedLength_H(value)`, none on overflow (R50). -/
def writeSpan : Instr → Span
  | .elenA _ => Span.empty
  | .encA value buffer offset => ⟨buffer, offset, encodedLength .A value.toNat⟩
  | .dlenA _ _ => Span.empty
  | .decA _ _ => Span.empty
  | .elenB _ => Span.empty
  | .encB value buffer offset => ⟨buffer, offset, encodedLength .B value.toNat⟩
  | .dlenB _ _ => Span.empty
  | .decB _ _ => Span.empty
  | .a1 _ => Span.empty
  | .a2 _ => Span.empty
  | .a3 _ => Span.empty
  | .a4 _ => Span.empty
  | .b1 _ => Span.empty
  | .b2 _ => Span.empty

/-- R48 for `ENC`: room for the encoding, or overflow. -/
def encPrecondition (f : Format) (s : State) (value buffer offset : Nat) : Bool :=
  if value ≤ f.absoluteMax then offset + encodedLength f value ≤ s.bufLen buffer else true

/-- R48 for `DEC`: the first byte in bounds, and as many bytes as it says. -/
def decPrecondition (f : Format) (s : State) (buffer offset : Nat) : Bool :=
  match memRead s buffer offset with
  | some b0 => offset + (extract f b0).len ≤ s.bufLen buffer
  | none => false

/-- The preconditions of the operations (R48). -/
def precondition (s : State) : Instr → Bool
  | .elenA _ => true
  | .encA value buffer offset => encPrecondition .A s value.toNat buffer offset
  | .dlenA buffer offset => offset < s.bufLen buffer
  | .decA buffer offset => decPrecondition .A s buffer offset
  | .elenB _ => true
  | .encB value buffer offset => encPrecondition .B s value.toNat buffer offset
  | .dlenB buffer offset => offset < s.bufLen buffer
  | .decB buffer offset => decPrecondition .B s buffer offset
  | .a1 _ => true
  | .a2 _ => true
  | .a3 _ => true
  | .a4 _ => true
  | .b1 _ => true
  | .b2 _ => true

end Sys2Proof.Machine
end

