-- ==== Sys2Proof/Machine/DecodedLength.lean ====
section
/-! DEFINITION. `decodedLength`: DLEN.A and DLEN.B (42_decoded_length.md). -/

namespace Sys2Proof.Machine

/-- A peek at the one byte at `offset`; the continuation bytes need not exist (R153). Out of bounds the model refuses (R47). -/
def doDecodedLength (f : Format) (buffer offset : Nat) (s : State) : Host.Outcome State Fault Refusal :=
  match memRead s buffer offset with
  | some b0 => .next (s.deliver (.len (extract f b0).len))
  | none => .refused .outOfBounds

/-- DLEN.A (R151). -/
def execDlenA (buffer offset : Nat) (s : State) : Host.Outcome State Fault Refusal :=
  doDecodedLength .A buffer offset s

/-- DLEN.B (R152). -/
def execDlenB (buffer offset : Nat) (s : State) : Host.Outcome State Fault Refusal :=
  doDecodedLength .B buffer offset s

end Sys2Proof.Machine
end

