-- ==== Sys2Proof/Machine/Decoder.lean ====
section
/-! DEFINITION. `decode`: DEC.A and DEC.B (43_decode.md). -/

namespace Sys2Proof.Machine

/-- `decode_H(buf, offset)` as the pair of the value, not yet narrowed, and `bytesRead` (R171). Byte 0 is read once and gives both
the length and the first payload bits (R52, R180). `none` where the footprint leaves the buffer (R179). -/
def decodeAt (f : Format) (buffer offset : Nat) (s : State) : Option (Nat × Nat) :=
  (memRead s buffer offset).bind fun b0 =>
    (readBytes s buffer (offset + 1) ((extract f b0).len - 1)).map fun rest =>
      (assemble (extract f b0).p0 rest, (extract f b0).len)

/-- DEC.A (R172). -/
def execDecA (buffer offset : Nat) (s : State) : Host.Outcome State Fault Refusal :=
  match decodeAt .A buffer offset s with
  | some (value, bytesRead) => .next (s.deliver (.decodedA ⟨BitVec.ofNat 32 value, bytesRead⟩))
  | none => .refused .outOfBounds

/-- DEC.B (R173). -/
def execDecB (buffer offset : Nat) (s : State) : Host.Outcome State Fault Refusal :=
  match decodeAt .B buffer offset s with
  | some (value, bytesRead) => .next (s.deliver (.decodedB ⟨BitVec.ofNat 16 value, bytesRead⟩))
  | none => .refused .outOfBounds

end Sys2Proof.Machine
end

