-- ==== Sys2Proof/Machine/Encode.lean ====
section
/-! DEFINITION. `encode`: ENC.A and ENC.B (41_encode.md). -/

namespace Sys2Proof.Machine

/-- The overflow test comes first and decides whether anything is accessed (R125, R127); otherwise the `L` bytes of `pack` are
written at `offset` and `L` is the result (R126). Out of bounds the model refuses (R129, R47). -/
def doEncode (f : Format) (value buffer offset : Nat) (s : State) : Host.Outcome State Fault Refusal :=
  if overflowed (encodedLength f value) then .next (s.deliver (.len 0))
  else match writeBytes s buffer offset (pack f (encodedLength f value) value) with
    | some t => .next (t.deliver (.len (encodedLength f value)))
    | none => .refused .outOfBounds

/-- ENC.A (R122). -/
def execEncA (value : ValueA) (buffer offset : Nat) (s : State) : Host.Outcome State Fault Refusal :=
  doEncode .A value.toNat buffer offset s

/-- ENC.B (R123). -/
def execEncB (value : ValueB) (buffer offset : Nat) (s : State) : Host.Outcome State Fault Refusal :=
  doEncode .B value.toNat buffer offset s

end Sys2Proof.Machine
end

