-- ==== Sys2Proof/Machine/EncodedLength.lean ====
section
/-! DEFINITION. `encodedLength`: ELEN.A and ELEN.B (40_encoded_length.md). -/

namespace Sys2Proof.Machine

/-- The length of the value's shortest encoding goes to the host; no buffer is touched (R100, R104). -/
def doEncodedLength (f : Format) (value : Nat) (s : State) : Host.Outcome State Fault Refusal :=
  .next (s.deliver (.len (encodedLength f value)))

/-- ELEN.A (R101). -/
def execElenA (value : ValueA) (s : State) : Host.Outcome State Fault Refusal :=
  doEncodedLength .A value.toNat s

/-- ELEN.B (R102). -/
def execElenB (value : ValueB) (s : State) : Host.Outcome State Fault Refusal :=
  doEncodedLength .B value.toNat s

end Sys2Proof.Machine
end

