-- ==== Sys2Proof/Machine/WireForms.lean ====
section
/-! DEFINITION. The six wire forms A1 to A4, B1 and B2 (R72, R73).

A wire form is no command: it is what `ENC` writes and what `DLEN` and `DEC` read. Its effect is the one the spec gives a form once
its bytes are read: the payload, zero-extended to the container, is the value, and the form's length is `bytesRead` (R74, R174). A
`DEC` command whose offset stands at the form's bytes has this very effect; the statements say so. DESIGN CHOICE, log entry 7. -/

namespace Sys2Proof.Machine

/-- What `codec_A` delivers for a form of `len` bytes with this payload. -/
def consumeA {w : Nat} (payload : BitVec w) (len : Nat) (s : State) : Host.Outcome State Fault Refusal :=
  .next (s.deliver (.decodedA ⟨payload.setWidth 32, len⟩))

/-- What `codec_B` delivers for a form of `len` bytes with this payload. -/
def consumeB {w : Nat} (payload : BitVec w) (len : Nat) (s : State) : Host.Outcome State Fault Refusal :=
  .next (s.deliver (.decodedB ⟨payload.setWidth 16, len⟩))

/-- A1: one byte, `value = b0[5:0]` (R72, R174). -/
def execA1 (payload : BitVec 6) (s : State) : Host.Outcome State Fault Refusal := consumeA payload 1 s

/-- A2: two bytes, `value = {b0[5:0], b1}` (R72, R174). -/
def execA2 (payload : BitVec 14) (s : State) : Host.Outcome State Fault Refusal := consumeA payload 2 s

/-- A3: three bytes, `value = {b0[5:0], b1, b2}` (R72, R174). -/
def execA3 (payload : BitVec 22) (s : State) : Host.Outcome State Fault Refusal := consumeA payload 3 s

/-- A4: four bytes, `value = {b0[5:0], b1, b2, b3}` (R72, R174). -/
def execA4 (payload : BitVec 30) (s : State) : Host.Outcome State Fault Refusal := consumeA payload 4 s

/-- B1: one byte, `value = b0[6:0]` (R73, R174). -/
def execB1 (payload : BitVec 7) (s : State) : Host.Outcome State Fault Refusal := consumeB payload 1 s

/-- B2: two bytes, `value = {b0[6:0], b1}` (R73, R174). -/
def execB2 (payload : BitVec 15) (s : State) : Host.Outcome State Fault Refusal := consumeB payload 2 s

end Sys2Proof.Machine
end

