-- ==== Sys2Proof/Machine/Dispatch.lean ====
section
/-! DEFINITION. The dispatch: one arm per row of the opcode table. -/

namespace Sys2Proof.Machine

def exec (i : Instr) (s : State) : Host.Outcome State Fault Refusal :=
  match i with
  | .elenA value => Sys2Proof.Machine.execElenA value s
  | .encA value buffer offset => Sys2Proof.Machine.execEncA value buffer offset s
  | .dlenA buffer offset => Sys2Proof.Machine.execDlenA buffer offset s
  | .decA buffer offset => Sys2Proof.Machine.execDecA buffer offset s
  | .elenB value => Sys2Proof.Machine.execElenB value s
  | .encB value buffer offset => Sys2Proof.Machine.execEncB value buffer offset s
  | .dlenB buffer offset => Sys2Proof.Machine.execDlenB buffer offset s
  | .decB buffer offset => Sys2Proof.Machine.execDecB buffer offset s
  | .a1 payload => Sys2Proof.Machine.execA1 payload s
  | .a2 payload => Sys2Proof.Machine.execA2 payload s
  | .a3 payload => Sys2Proof.Machine.execA3 payload s
  | .a4 payload => Sys2Proof.Machine.execA4 payload s
  | .b1 payload => Sys2Proof.Machine.execB1 payload s
  | .b2 payload => Sys2Proof.Machine.execB2 payload s

end Sys2Proof.Machine
end

