-- ==== Sys2Proof/WellFormed.lean ====
section
/-! DEFINITION. The checks on what presents an instruction, and the spec's ranges for the operands of one.

The words are where something ill-formed can be written down: a Format B value of more than 16 bits, or a byte string that is not
one whole encoding. The operands of `Instr` are bounded by their types; `Instr.wellFormed` says the bounds in the spec's own
formulas, and `Laws/PerInstr.lean` proves that the types meet them. -/

namespace Sys2Proof

/-- The value field fits the container of the format, where the operation uses it (R8, R86). Codes `0b100` and `0b101` are
`ELEN.B` and `ENC.B`; no other operation of Format B has a value operand (R84). -/
def Command.wellFormed (c : Command) : Bool :=
  if c.cmd = 0b100#3 ∨ c.cmd = 0b101#3 then c.value.toNat < 2 ^ Format.B.containerWidth else true

/-- The bytes are one whole encoding: as many as the header bits of byte 0 say (R75). -/
def wellFormedEncoding (f : Format) : List Byte → Bool
  | [] => false
  | b0 :: rest => b0.toNat / 2 ^ (8 - f.headerBits) + 1 == rest.length + 1

def Words.wellFormed : Words → Bool
  | .command c => c.wellFormed
  | .encoding f bytes => wellFormedEncoding f bytes

/-- The ranges of the operands: a value operand is below `2^W(H)` (R8) and the payload of an `L`-byte form is at most
`maxValueForLength(H, L)` (R71, R72, R73). Offsets and buffer names are any natural numbers (R9). -/
def Instr.wellFormed : Instr → Bool
  | .elenA value => value.toNat < 2 ^ Format.A.containerWidth
  | .encA value _ _ => value.toNat < 2 ^ Format.A.containerWidth
  | .dlenA _ _ => true
  | .decA _ _ => true
  | .elenB value => value.toNat < 2 ^ Format.B.containerWidth
  | .encB value _ _ => value.toNat < 2 ^ Format.B.containerWidth
  | .dlenB _ _ => true
  | .decB _ _ => true
  | .a1 payload => payload.toNat ≤ Format.A.maxValueForLength 1
  | .a2 payload => payload.toNat ≤ Format.A.maxValueForLength 2
  | .a3 payload => payload.toNat ≤ Format.A.maxValueForLength 3
  | .a4 payload => payload.toNat ≤ Format.A.maxValueForLength 4
  | .b1 payload => payload.toNat ≤ Format.B.maxValueForLength 1
  | .b2 payload => payload.toNat ≤ Format.B.maxValueForLength 2

end Sys2Proof
end

