-- ==== Sys2Proof/Decode.lean ====
section
/-! DEFINITION. The decoder, total on all words and rejecting by name, and after it the encoder.

Both are written from the bit drawings of 30_encoding.md (R72, R73 for the wire forms, R84 for the command code), not from the
arithmetic of `pack`, `extract` and `assemble` in `Machine/Ops.lean`; that the two views agree is stated, not assumed. -/

namespace Sys2Proof

/-! ## Commands (R84) -/

/-- The value operand of a Format B command: the field itself where it fits 16 bits; never a truncation (R86, N13). -/
def valueOperandB (value : BitVec 32) : Except Reject ValueB :=
  if value.toNat < 2 ^ 16 then .ok (value.setWidth 16) else .error .valueTooWide

/-- `cmd[2]` is the format, `cmd[1:0]` the operation. All eight codes are defined (R85). -/
def decodeCommand (c : Command) : Except Reject Instr :=
  if c.cmd = 0b000#3 then .ok (.elenA c.value)
  else if c.cmd = 0b001#3 then .ok (.encA c.value c.buffer c.offset)
  else if c.cmd = 0b010#3 then .ok (.dlenA c.buffer c.offset)
  else if c.cmd = 0b011#3 then .ok (.decA c.buffer c.offset)
  else if c.cmd = 0b100#3 then (valueOperandB c.value).map .elenB
  else if c.cmd = 0b101#3 then (valueOperandB c.value).map fun v => .encB v c.buffer c.offset
  else if c.cmd = 0b110#3 then .ok (.dlenB c.buffer c.offset)
  else .ok (.decB c.buffer c.offset)

/-! ## Wire forms (R72, R73) -/

/-- The low six bits of byte 0, the first payload bits of Format A (R72). -/
def payloadBitsA (b0 : Byte) : BitVec 6 := b0.extractLsb' 0 6

/-- The low seven bits of byte 0, the first payload bits of Format B (R73). -/
def payloadBitsB (b0 : Byte) : BitVec 7 := b0.extractLsb' 0 7

/-- One encoding of Format A from the front of a byte string, and the bytes after it. The top two bits of byte 0 pick the form;
the payload is the concatenation of the rest of byte 0 and the continuation bytes, high to low (R72, R74). -/
def decodeWireA : List Byte → Except Reject (Instr × List Byte)
  | [] => .error .truncated
  | b0 :: rest =>
    if b0.extractLsb' 6 2 = 0b00#2 then .ok (.a1 (payloadBitsA b0), rest)
    else if b0.extractLsb' 6 2 = 0b01#2 then
      match rest with
      | c1 :: tail => .ok (.a2 (payloadBitsA b0 ++ c1), tail)
      | _ => .error .truncated
    else if b0.extractLsb' 6 2 = 0b10#2 then
      match rest with
      | c1 :: c2 :: tail => .ok (.a3 (payloadBitsA b0 ++ c1 ++ c2), tail)
      | _ => .error .truncated
    else
      match rest with
      | c1 :: c2 :: c3 :: tail => .ok (.a4 (payloadBitsA b0 ++ c1 ++ c2 ++ c3), tail)
      | _ => .error .truncated

/-- One encoding of Format B from the front of a byte string, and the bytes after it; the top bit of byte 0 picks the form
(R73, R74). -/
def decodeWireB : List Byte → Except Reject (Instr × List Byte)
  | [] => .error .truncated
  | b0 :: rest =>
    if b0.extractLsb' 7 1 = 0b0#1 then .ok (.b1 (payloadBitsB b0), rest)
    else
      match rest with
      | c1 :: tail => .ok (.b2 (payloadBitsB b0 ++ c1), tail)
      | _ => .error .truncated

def decodeWire : Format → List Byte → Except Reject (Instr × List Byte)
  | .A => decodeWireA
  | .B => decodeWireB

/-- A byte string that is one encoding and nothing more. -/
def decodeWireWhole (f : Format) (bytes : List Byte) : Except Reject Instr :=
  match decodeWire f bytes with
  | .ok (i, []) => .ok i
  | .ok (_, _ :: _) => .error .trailingBytes
  | .error r => .error r

/-- The decoder. -/
def decode : Words → Except Reject Instr
  | .command c => decodeCommand c
  | .encoding f bytes => decodeWireWhole f bytes

/-! ## The encoder -/

/-- The words of an instruction. A command's unused operand fields are zero. -/
def encode : Instr → Words
  | .elenA value => .command ⟨0b000#3, value, 0, 0⟩
  | .encA value buffer offset => .command ⟨0b001#3, value, buffer, offset⟩
  | .dlenA buffer offset => .command ⟨0b010#3, 0#32, buffer, offset⟩
  | .decA buffer offset => .command ⟨0b011#3, 0#32, buffer, offset⟩
  | .elenB value => .command ⟨0b100#3, value.setWidth 32, 0, 0⟩
  | .encB value buffer offset => .command ⟨0b101#3, value.setWidth 32, buffer, offset⟩
  | .dlenB buffer offset => .command ⟨0b110#3, 0#32, buffer, offset⟩
  | .decB buffer offset => .command ⟨0b111#3, 0#32, buffer, offset⟩
  | .a1 v => .encoding .A [0b00#2 ++ v]
  | .a2 v => .encoding .A [0b01#2 ++ v.extractLsb' 8 6, v.extractLsb' 0 8]
  | .a3 v => .encoding .A [0b10#2 ++ v.extractLsb' 16 6, v.extractLsb' 8 8, v.extractLsb' 0 8]
  | .a4 v => .encoding .A [0b11#2 ++ v.extractLsb' 24 6, v.extractLsb' 16 8, v.extractLsb' 8 8, v.extractLsb' 0 8]
  | .b1 v => .encoding .B [0b0#1 ++ v]
  | .b2 v => .encoding .B [0b1#1 ++ v.extractLsb' 8 7, v.extractLsb' 0 8]

/-! ## The opcode table's words -/

/-- The first `n` bytes of a word whose first byte is its low byte: the order in which `spec/opcode_table.json` numbers bits. -/
def tableBytes (w : Nat) : Nat → List Byte
  | 0 => []
  | n + 1 => BitVec.ofNat 8 w :: tableBytes (w / 256) n

/-- The words a table word stands for. The table numbers three spaces that overlap: the command codes, the encodings of Format A
and those of Format B. DESIGN CHOICE (log entry 8): a one-byte word below 8 is a command code, with operands of zero; any other
word is an encoding of Format A where it is exactly one, and of Format B otherwise. -/
def tableWords (nbits w : Nat) : Words :=
  let bytes := tableBytes w ((nbits + 7) / 8)
  if nbits ≤ 8 ∧ w < 8 then .command ⟨BitVec.ofNat 3 w, 0#32, 0, 0⟩
  else match decodeWireWhole .A bytes with
    | .ok _ => .encoding .A bytes
    | .error _ => .encoding .B bytes

def decodeTableWord (nbits w : Nat) : Option Instr := (decode (tableWords nbits w)).toOption

end Sys2Proof
end

