-- ==== Sys2Proof/Machine/HostMoves.lean ====
section
/-! DEFINITION. The host's moves that are no command, and the placing of one instruction as the host's next command. -/

namespace Sys2Proof.Machine

/-- The host hands over a buffer between commands (R261, R275). -/
def hostProvide (buffer len : Nat) (s : State) : Host.Outcome State Fault Refusal :=
  .next (s.provide buffer len)

/-- The host writes one byte of its own buffer between commands (R275). -/
def hostWrite (buffer index : Nat) (v : Byte) (s : State) : Host.Outcome State Fault Refusal :=
  match memWrite s buffer index v with
  | some t => .next t
  | none => .refused .hostOutOfBounds

/-- Buffer 0 holds the bytes from index 0 on; it is handed over anew where it is shorter than them. -/
def State.withBytesAtZero (s : State) (bytes : List Byte) : State :=
  let t := if bytes.length ≤ s.bufLen 0 then s else s.provide 0 bytes.length
  (writeBytes t 0 0 bytes).getD t

/-- Buffer 0 has room for the longest encoding: it is handed over with `maxBytes` bytes of zero where it has less. -/
def State.withRoomAtZero (s : State) : State :=
  if Format.A.maxBytes ≤ s.bufLen 0 then s
  else s.withBytesAtZero (List.replicate Format.A.maxBytes 0#8)

/-- The `DEC` command of a format at a place (R84). -/
def decCommand : Format → Nat → Nat → Command
  | .A, buffer, offset => ⟨0b011#3, 0#32, buffer, offset⟩
  | .B, buffer, offset => ⟨0b111#3, 0#32, buffer, offset⟩

/-- The `ENC` command of a format at a place (R84). -/
def encCommand : Format → Nat → Nat → Nat → Command
  | .A, value, buffer, offset => ⟨0b001#3, BitVec.ofNat 32 value, buffer, offset⟩
  | .B, value, buffer, offset => ⟨0b101#3, BitVec.ofNat 32 value, buffer, offset⟩

/-- The words are what the next step runs: a command is issued next, over a buffer 0 that has room; an encoding stands at the start
of buffer 0, and the `DEC` command that reads it is issued next. -/
def State.withWords (s : State) : Words → State
  | .command c => { s.withRoomAtZero with moves := .issue c :: s.moves }
  | .encoding f bytes => { s.withBytesAtZero bytes with moves := .issue (decCommand f 0 0) :: s.moves }

end Sys2Proof.Machine
end

