-- ==== Sys2Proof/Machine/Step.lean ====
section
/-! DEFINITION. One step: the host's next move, whole (R10, R55, R274). -/

namespace Sys2Proof.Machine

/-- A command is presented to the decoder and the instruction it gives is executed on the state from which the command is taken. -/
def issueCommand (c : Command) (s : State) : Host.Outcome State Fault Refusal :=
  match decode (.command c) with
  | .ok i => exec i s
  | .error r => .refused (.notPresentable r)

/-- With no move left the run is over and the codec is idle: nothing changes (R241, R274). -/
def step (s : State) : Host.Outcome State Fault Refusal :=
  match s.moves with
  | [] => .next s
  | .provide buffer len :: rest => hostProvide buffer len { s with moves := rest }
  | .write buffer index v :: rest => hostWrite buffer index v { s with moves := rest }
  | .issue c :: rest => issueCommand c { s with moves := rest }

/-- The table word stored where `step` takes its next instruction from (log entry 9). -/
def State.withFetchWord (s : State) (nbits w : Nat) : State := s.withWords (tableWords nbits w)

end Sys2Proof.Machine
end

