-- ==== Sys2Proof/Safety.lean ====
section
/-! DEFINITION. What counts as a good state and a safe command, and the terms the statements use.

A run is safe where every command meets its precondition (`Machine.precondition`, R48): then no step is refused for an access out of
bounds, and there is no fault to avoid (`Machine.Fault` is empty). -/

namespace Sys2Proof.Machine

/-! ## The invariant -/

/-- A result is in the range the rules give it (R25, R27, R176). -/
def Result.inRange : Result → Prop
  | .len n => n ≤ Format.A.maxBytes
  | .decodedA r => 1 ≤ r.bytesRead ∧ r.bytesRead ≤ Format.A.maxBytes ∧ r.value.toNat ≤ Format.A.absoluteMax
  | .decodedB r => 1 ≤ r.bytesRead ∧ r.bytesRead ≤ Format.B.maxBytes ∧ r.value.toNat ≤ Format.B.absoluteMax

/-- A buffer is in order: its memory is canonical, holds no byte at or above `BUF_LEN` (R28), and the buffer was handed over before
hand-over number `provided`. -/
def Buffer.inOrder (provided : Nat) (b : Buffer) : Prop :=
  Memory.wf b.cells ∧ (∀ c ∈ b.cells, c.1 < b.len) ∧ b.serial < provided

/-- The invariant: buffer names rise, every buffer is in order, no two buffers share a hand-over number (so their free bytes are
unrelated), and every delivered result is in its range. -/
structure State.Inv (s : State) : Prop where
  names : tableSorted s.buffers
  inOrder : ∀ e ∈ s.buffers, e.2.inOrder s.provided
  serials : s.buffers.Pairwise fun x y => x.2.serial ≠ y.2.serial
  results : ∀ r ∈ s.results, r.inRange

/-! ## The operations of a format, for statements that hold of both -/

/-- `ELEN` of a format. -/
def elenOf : Format → Nat → Instr
  | .A, value => .elenA (BitVec.ofNat 32 value)
  | .B, value => .elenB (BitVec.ofNat 16 value)

/-- `ENC` of a format. -/
def encOf : Format → Nat → Nat → Nat → Instr
  | .A, value, buffer, offset => .encA (BitVec.ofNat 32 value) buffer offset
  | .B, value, buffer, offset => .encB (BitVec.ofNat 16 value) buffer offset

/-- `DLEN` of a format. -/
def dlenOf : Format → Nat → Nat → Instr
  | .A, buffer, offset => .dlenA buffer offset
  | .B, buffer, offset => .dlenB buffer offset

/-- `DEC` of a format. -/
def decOf : Format → Nat → Nat → Instr
  | .A, buffer, offset => .decA buffer offset
  | .B, buffer, offset => .decB buffer offset

/-- The `DecodeResult` of a format: `value` in `W(H)` bits, and `bytesRead` (R27). -/
def decodedOf : Format → Nat → Nat → Result
  | .A, value, bytesRead => .decodedA ⟨BitVec.ofNat 32 value, bytesRead⟩
  | .B, value, bytesRead => .decodedB ⟨BitVec.ofNat 16 value, bytesRead⟩

/-! ## Byte strings as numbers, and sequences of commands -/

/-- Bytes read as one big-endian number, byte 0 the most significant (R43). -/
def bigEndian : List Byte → Nat
  | [] => 0
  | b :: rest => b.toNat * 256 ^ rest.length + bigEndian rest

/-- The canonical encoding of a value: its shortest form (R76). -/
def canonical (f : Format) (value : Nat) : List Byte := pack f (encodedLength f value) value

/-- The sum of the canonical lengths of values (R205). -/
def totalLength (f : Format) : List Nat → Nat
  | [] => 0
  | v :: vs => encodedLength f v + totalLength f vs

/-- The host encodes values back to back from an offset on, each at the offset where the one before ended (R205). -/
def packingMoves (f : Format) (buffer : Nat) : Nat → List Nat → List HostMove
  | _, [] => []
  | offset, v :: vs =>
    .issue (encCommand f v buffer offset) :: packingMoves f buffer (offset + encodedLength f v) vs

/-- The host decodes as many encodings from an offset on, each at the offset where the one before ended (R205). -/
def unpackingMoves (f : Format) (buffer : Nat) : Nat → List Nat → List HostMove
  | _, [] => []
  | offset, v :: vs =>
    .issue (decCommand f buffer offset) :: unpackingMoves f buffer (offset + encodedLength f v) vs

end Sys2Proof.Machine
end

