-- ==== Sys2Proof/Certificates/Slice0/Obligations.lean ====
section
/-! DEFINITION. The statements for the provers. -/

open Sys2Proof Sys2Proof.Machine

/-! ## Encodings -/

/-- R84, D4 (the 3-bit code is the spec's own choice): each of the eight codes presents its operation, with the operands it uses,
whatever stands in the fields it does not use (R85). A Format B value is one of 16 bits. -/
def Obligations.CommandCodesPresentTheirOperations : Prop :=
  ∀ (value : ValueA) (valueB : ValueB) (buffer offset : Nat),
    decode (.command ⟨0b000#3, value, buffer, offset⟩) = .ok (.elenA value) ∧
    decode (.command ⟨0b001#3, value, buffer, offset⟩) = .ok (.encA value buffer offset) ∧
    decode (.command ⟨0b010#3, value, buffer, offset⟩) = .ok (.dlenA buffer offset) ∧
    decode (.command ⟨0b011#3, value, buffer, offset⟩) = .ok (.decA buffer offset) ∧
    decode (.command ⟨0b100#3, valueB.setWidth 32, buffer, offset⟩) = .ok (.elenB valueB) ∧
    decode (.command ⟨0b101#3, valueB.setWidth 32, buffer, offset⟩) = .ok (.encB valueB buffer offset) ∧
    decode (.command ⟨0b110#3, value, buffer, offset⟩) = .ok (.dlenB buffer offset) ∧
    decode (.command ⟨0b111#3, value, buffer, offset⟩) = .ok (.decB buffer offset)

/-- Words written out from the spec's encodings (R72, R73; the bytes of 95_test_vectors.md) present their forms. -/
def Obligations.WordsFromTheSpecDecode : Prop :=
  decode (.encoding .A [0b00111111#8]) = .ok (.a1 63#6) ∧
  decode (.encoding .A [0b01000011#8, 0b11101000#8]) = .ok (.a2 1000#14) ∧
  decode (.encoding .A [0b10000001#8, 0b10000110#8, 0b10100000#8]) = .ok (.a3 100000#22) ∧
  decode (.encoding .A [0b11010010#8, 0b00110100#8, 0b01010110#8, 0b01111000#8]) = .ok (.a4 0x12345678#30) ∧
  decode (.encoding .B [0b01111111#8]) = .ok (.b1 127#7) ∧
  decode (.encoding .B [0b10000011#8, 0b11101000#8]) = .ok (.b2 1000#15)

/-- Decode and encode agree: every instruction, with every operand at every value its type admits, comes back. -/
def Obligations.DecodeOfEncodeIsTheInstruction : Prop :=
  ∀ i : Instr, decode (encode i) = .ok i

/-- The other direction for the wire forms: bytes that are one whole encoding are what the form they present encodes to, so that no
bit of them is dropped (R70, R77). -/
def Obligations.EncodeOfAWholeEncodingIsItsBytes : Prop :=
  ∀ (f : Format) (bytes : List Byte) (i : Instr),
    decode (.encoding f bytes) = .ok i → encode i = .encoding f bytes

/-- R75, R77: every byte 0 begins a form, whatever the continuation bytes; the form takes exactly the bytes that the header bits
`byte0[7 : 8-H]` name, and the only byte strings that begin none are those with fewer bytes. -/
def Obligations.EveryFirstByteBeginsAForm : Prop :=
  ∀ (f : Format) (b0 : Byte) (rest : List Byte),
    (slice b0.toNat 7 (8 - f.headerBits) ≤ rest.length →
      ∃ i, decodeWire f (b0 :: rest) = .ok (i, rest.drop (slice b0.toNat 7 (8 - f.headerBits)))) ∧
    (rest.length < slice b0.toNat 7 (8 - f.headerBits) → decodeWire f (b0 :: rest) = .error .truncated)

/-! ## The step -/

/-- A step runs the decoded instruction: where the host's next move issues a command that presents `i`, the step is `exec i` on the
state from which the move is taken, and nothing else. -/
def Obligations.StepRunsTheIssuedCommand : Prop :=
  ∀ (s : State) (c : Command) (rest : List HostMove) (i : Instr),
    s.moves = .issue c :: rest → decode (.command c) = .ok i → step s = exec i { s with moves := rest }

/-- Log entry 7 (DESIGN CHOICE): that a wire form is an instruction, run by a `DEC` command at its bytes, is the model's choice. R174
says only what `DEC` delivers for each form. With `i` the form the bytes of the footprint present, the step on that command is
`exec i` on the state from which the move is taken. -/
def Obligations.StepRunsTheWireFormInTheBuffer : Prop :=
  ∀ (f : Format) (s : State) (buffer offset n : Nat) (bytes : List Byte) (rest : List HostMove) (i : Instr),
    s.moves = .issue (decCommand f buffer offset) :: rest →
    readBytes s buffer offset n = some bytes → decode (.encoding f bytes) = .ok i →
    step s = exec i { s with moves := rest }

/-- Log entry 4 (DESIGN CHOICE): the moves that are no command. With no move left nothing changes; a hand-over gives the named
buffer its length and bytes that nothing has written, which hold the free value; a host write changes its one byte and stops
where it leaves the host's own buffer. Nothing of the other buffers changes, and no result is delivered. That the free value of a
hand-over is one function for every run is log entry 18 (DESIGN CHOICE), not R261's. -/
def Obligations.HostMovesBetweenCommands : Prop :=
  (∀ s : State, s.moves = [] → step s = .next s) ∧
  (∀ (s : State) (buffer len : Nat) (rest : List HostMove), s.moves = .provide buffer len :: rest →
    ∃ t, step s = .next t ∧ t.moves = rest ∧ t.results = s.results ∧ t.provided = s.provided + 1 ∧
      t.bufLen buffer = len ∧
      (∀ i, i < len → memRead t buffer i = some (Config.initialByte s.provided i)) ∧
      (∀ i, len ≤ i → memRead t buffer i = none) ∧
      (∀ b, b ≠ buffer → t.bufLen b = s.bufLen b ∧ ∀ i, memRead t b i = memRead s b i)) ∧
  (∀ (s : State) (buffer index : Nat) (v : Byte) (rest : List HostMove), s.moves = .write buffer index v :: rest →
    (index < s.bufLen buffer →
      ∃ t, step s = .next t ∧ t.moves = rest ∧ t.results = s.results ∧ t.provided = s.provided ∧
        memRead t buffer index = some v ∧ (∀ b, t.bufLen b = s.bufLen b) ∧
        (∀ b i, ¬(b = buffer ∧ i = index) → memRead t b i = memRead s b i)) ∧
    (s.bufLen buffer ≤ index → step s = .refused .hostOutOfBounds))

/-- R86, D6: a Format B command that uses a value of more than 16 bits cannot be presented; the model refuses it and never
truncates the value. -/
def Obligations.WideFormatBValueIsNotPresentable : Prop :=
  ∀ (s : State) (c : Command) (rest : List HostMove), s.moves = .issue c :: rest →
    (c.cmd = 0b100#3 ∨ c.cmd = 0b101#3) → 2 ^ 16 ≤ c.value.toNat →
    step s = .refused (.notPresentable .valueTooWide)

/-- R274: every step that goes on takes exactly one of the host's moves, so a run of `n` moves is over after `n` steps. -/
def Obligations.StepTakesOneMove : Prop :=
  ∀ (s t : State) (m : HostMove) (rest : List HostMove), s.moves = m :: rest → step s = .next t → t.moves = rest

/-! ## encodedLength -/

/-- R101 and R104: ELEN.A. -/
def Obligations.ElenAReturnsTheLength : Prop :=
  ∀ (value : ValueA) (s : State) (buffer offset : Nat),
    decode (.command ⟨0b000#3, value, buffer, offset⟩) = .ok (.elenA value) ∧
    exec (.elenA value) s = .next { s with results := s.results ++ [.len
      (if value.toNat > 1073741823 then 0
       else if value.toNat > 4194303 then 4
       else if value.toNat > 16383 then 3
       else if value.toNat > 63 then 2
       else 1)] }

/-- R102 and R104: ELEN.B. -/
def Obligations.ElenBReturnsTheLength : Prop :=
  ∀ (value : ValueB) (s : State) (buffer offset : Nat),
    decode (.command ⟨0b100#3, value.setWidth 32, buffer, offset⟩) = .ok (.elenB value) ∧
    exec (.elenB value) s = .next { s with results := s.results ++ [.len
      (if value.toNat > 32767 then 0
       else if value.toNat > 127 then 2
       else 1)] }

/-- R100: the length is 0 above `absoluteMax`, and otherwise the least `L` in `1 .. maxBytes` that can hold the value. -/
def Obligations.EncodedLengthIsTheLeastLength : Prop :=
  ∀ (f : Format) (value : Nat),
    (f.absoluteMax < value → encodedLength f value = 0) ∧
    (value ≤ f.absoluteMax →
      1 ≤ encodedLength f value ∧ encodedLength f value ≤ f.maxBytes ∧
      value ≤ f.maxValueForLength (encodedLength f value) ∧
      ∀ len, 1 ≤ len → len ≤ f.maxBytes → value ≤ f.maxValueForLength len → encodedLength f value ≤ len)

/-- R103: the same by bit tests, a priority encoder over the groups of value bits above each form's payload. -/
def Obligations.EncodedLengthByBitTests : Prop :=
  (∀ v : ValueA, encodedLength .A v.toNat =
    if slice v.toNat 31 30 ≠ 0 then 0
    else if slice v.toNat 29 22 ≠ 0 then 4
    else if slice v.toNat 21 14 ≠ 0 then 3
    else if slice v.toNat 13 6 ≠ 0 then 2
    else 1) ∧
  (∀ v : ValueB, encodedLength .B v.toNat =
    if slice v.toNat 15 15 ≠ 0 then 0
    else if slice v.toNat 14 7 ≠ 0 then 2
    else 1)

/-- R207, R208: the boundary lengths, as results of ELEN.A and ELEN.B. -/
def Obligations.BoundaryLengthsAreExact : Prop :=
  ∀ s : State,
    (∀ p ∈ [(63, 1), (64, 2), (16383, 2), (16384, 3), (4194303, 3), (4194304, 4), (1073741823, 4)],
      exec (.elenA (BitVec.ofNat 32 p.1)) s = .next { s with results := s.results ++ [.len p.2] }) ∧
    (∀ p ∈ [(127, 1), (128, 2), (32767, 2)],
      exec (.elenB (BitVec.ofNat 16 p.1)) s = .next { s with results := s.results ++ [.len p.2] })

/-! ## encode -/

/-- R122: ENC.A. A value that can be encoded, in bounds, has its `L` bytes of `pack` written at `offset` and `L` returned; an
overflowing value returns 0 with nothing accessed. Every other byte, every buffer's length and the rest of the state stay. -/
def Obligations.EncAWritesThePackedBytes : Prop :=
  ∀ (value : ValueA) (buffer offset : Nat) (s : State),
    decode (.command ⟨0b001#3, value, buffer, offset⟩) = .ok (.encA value buffer offset) ∧
    (encodedLength .A value.toNat = 0 →
      exec (.encA value buffer offset) s = .next { s with results := s.results ++ [.len 0] }) ∧
    (encodedLength .A value.toNat ≠ 0 → offset + encodedLength .A value.toNat ≤ s.bufLen buffer →
      ∃ t, exec (.encA value buffer offset) s = .next t ∧
        t.results = s.results ++ [.len (encodedLength .A value.toNat)] ∧
        readBytes t buffer offset (encodedLength .A value.toNat) =
          some (pack .A (encodedLength .A value.toNat) value.toNat) ∧
        (∀ b a, ¬(b = buffer ∧ offset ≤ a ∧ a < offset + encodedLength .A value.toNat) → memRead t b a = memRead s b a) ∧
        (∀ b, t.bufLen b = s.bufLen b) ∧ t.moves = s.moves ∧ t.provided = s.provided)

/-- R123: ENC.B. -/
def Obligations.EncBWritesThePackedBytes : Prop :=
  ∀ (value : ValueB) (buffer offset : Nat) (s : State),
    decode (.command ⟨0b101#3, value.setWidth 32, buffer, offset⟩) = .ok (.encB value buffer offset) ∧
    (encodedLength .B value.toNat = 0 →
      exec (.encB value buffer offset) s = .next { s with results := s.results ++ [.len 0] }) ∧
    (encodedLength .B value.toNat ≠ 0 → offset + encodedLength .B value.toNat ≤ s.bufLen buffer →
      ∃ t, exec (.encB value buffer offset) s = .next t ∧
        t.results = s.results ++ [.len (encodedLength .B value.toNat)] ∧
        readBytes t buffer offset (encodedLength .B value.toNat) =
          some (pack .B (encodedLength .B value.toNat) value.toNat) ∧
        (∀ b a, ¬(b = buffer ∧ offset ≤ a ∧ a < offset + encodedLength .B value.toNat) → memRead t b a = memRead s b a) ∧
        (∀ b, t.bufLen b = s.bufLen b) ∧ t.moves = s.moves ∧ t.provided = s.provided)

/-- R203: every value above `absoluteMax` that the container holds gives 0 from both operations and leaves everything else as it
was, whatever the buffer and the offset; and ENC returns 0 exactly when ELEN does. -/
def Obligations.OverflowIsSignalledByZero : Prop :=
  ∀ (f : Format) (value buffer offset : Nat) (s : State), value < 2 ^ f.containerWidth →
    (f.absoluteMax < value →
      exec (elenOf f value) s = .next { s with results := s.results ++ [.len 0] } ∧
      exec (encOf f value buffer offset) s = .next { s with results := s.results ++ [.len 0] }) ∧
    ((∃ t, exec (encOf f value buffer offset) s = .next t ∧ t.results = s.results ++ [.len 0]) ↔
      (∃ t, exec (elenOf f value) s = .next t ∧ t.results = s.results ++ [.len 0]))

/-- R71: the encoding as one number. The two parts do not overlap, byte `i` is the slice the rule names, and read the other way the
top `H` bits are the selector and the rest is the value. -/
def Obligations.PackIsTheEncodingNumber : Prop :=
  ∀ (f : Format) (len v : Nat), 1 ≤ len → len ≤ f.maxBytes → v ≤ f.maxValueForLength len →
    ∀ e, e = ((len - 1) <<< (8 * len - f.headerBits)) ||| v →
      e = (len - 1) * 2 ^ (8 * len - f.headerBits) + v ∧
      (pack f len v).length = len ∧
      (∀ i, i < len → ((pack f len v)[i]?).map BitVec.toNat = some (slice e (8 * (len - i) - 1) (8 * (len - 1 - i)))) ∧
      bigEndian (pack f len v) = e ∧
      slice e (8 * len - 1) (8 * len - f.headerBits) = len - 1 ∧
      slice e (8 * len - f.headerBits - 1) 0 = v

/-- R72, R73, R121: `pack` written out bit by bit for each of the six forms, at every value the form can hold. -/
def Obligations.PackWrittenOutByForms : Prop :=
  (∀ v : BitVec 6, pack .A 1 v.toNat = [0b00#2 ++ v]) ∧
  (∀ v : BitVec 14, pack .A 2 v.toNat = [0b01#2 ++ v.extractLsb' 8 6, v.extractLsb' 0 8]) ∧
  (∀ v : BitVec 22, pack .A 3 v.toNat = [0b10#2 ++ v.extractLsb' 16 6, v.extractLsb' 8 8, v.extractLsb' 0 8]) ∧
  (∀ v : BitVec 30, pack .A 4 v.toNat =
    [0b11#2 ++ v.extractLsb' 24 6, v.extractLsb' 16 8, v.extractLsb' 8 8, v.extractLsb' 0 8]) ∧
  (∀ v : BitVec 7, pack .B 1 v.toNat = [0b0#1 ++ v]) ∧
  (∀ v : BitVec 15, pack .B 2 v.toNat = [0b1#1 ++ v.extractLsb' 8 7, v.extractLsb' 0 8])

/-! ## decodedLength -/

/-- R151: DLEN.A reads the one byte at `offset` and returns `b0[7:6] + 1`; nothing else changes, and the bytes after it need not
exist. -/
def Obligations.DlenAReturnsTheLength : Prop :=
  ∀ (value : ValueA) (buffer offset : Nat) (s : State) (b0 : Byte),
    decode (.command ⟨0b010#3, value, buffer, offset⟩) = .ok (.dlenA buffer offset) ∧
    (memRead s buffer offset = some b0 →
      exec (.dlenA buffer offset) s = .next { s with results := s.results ++ [.len (slice b0.toNat 7 6 + 1)] } ∧
      slice b0.toNat 7 6 + 1 =
        if b0.toNat ≤ 0x3F then 1 else if b0.toNat ≤ 0x7F then 2 else if b0.toNat ≤ 0xBF then 3 else 4)

/-- R152: DLEN.B reads the one byte at `offset` and returns `b0[7] + 1`. -/
def Obligations.DlenBReturnsTheLength : Prop :=
  ∀ (value : ValueA) (buffer offset : Nat) (s : State) (b0 : Byte),
    decode (.command ⟨0b110#3, value, buffer, offset⟩) = .ok (.dlenB buffer offset) ∧
    (memRead s buffer offset = some b0 →
      exec (.dlenB buffer offset) s = .next { s with results := s.results ++ [.len (slice b0.toNat 7 7 + 1)] } ∧
      slice b0.toNat 7 7 + 1 = if b0.toNat ≤ 0x7F then 1 else 2)

/-- R150: `extract` splits byte 0 into the top `H` bits, which alone give the length, and the low `8 - H` bits. -/
def Obligations.ExtractSplitsTheFirstByte : Prop :=
  ∀ (f : Format) (b0 : Byte),
    (extract f b0).selector = slice b0.toNat 7 (8 - f.headerBits) ∧
    (extract f b0).len = (extract f b0).selector + 1 ∧
    (extract f b0).p0 = slice b0.toNat (7 - f.headerBits) 0 ∧
    1 ≤ (extract f b0).len ∧ (extract f b0).len ≤ f.maxBytes ∧
    b0.toNat = (extract f b0).selector * 2 ^ (8 - f.headerBits) + (extract f b0).p0

/-! ## decode -/

/-- R172: DEC.A, for each of the four lengths byte 0 can name, with the whole state after it. -/
def Obligations.DecAReturnsValueAndLength : Prop :=
  ∀ (value : ValueA) (buffer offset : Nat) (s : State) (b0 : Byte),
    decode (.command ⟨0b011#3, value, buffer, offset⟩) = .ok (.decA buffer offset) ∧
    (memRead s buffer offset = some b0 →
      (slice b0.toNat 7 6 + 1 = 1 →
        exec (.decA buffer offset) s = .next { s with results := s.results ++
          [.decodedA ⟨BitVec.ofNat 32 (slice b0.toNat 5 0), 1⟩] }) ∧
      (∀ c1, slice b0.toNat 7 6 + 1 = 2 → memRead s buffer (offset + 1) = some c1 →
        exec (.decA buffer offset) s = .next { s with results := s.results ++
          [.decodedA ⟨BitVec.ofNat 32 (slice b0.toNat 5 0 * 256 + c1.toNat), 2⟩] }) ∧
      (∀ c1 c2, slice b0.toNat 7 6 + 1 = 3 → memRead s buffer (offset + 1) = some c1 →
        memRead s buffer (offset + 2) = some c2 →
        exec (.decA buffer offset) s = .next { s with results := s.results ++
          [.decodedA ⟨BitVec.ofNat 32 (slice b0.toNat 5 0 * 65536 + c1.toNat * 256 + c2.toNat), 3⟩] }) ∧
      (∀ c1 c2 c3, slice b0.toNat 7 6 + 1 = 4 → memRead s buffer (offset + 1) = some c1 →
        memRead s buffer (offset + 2) = some c2 → memRead s buffer (offset + 3) = some c3 →
        exec (.decA buffer offset) s = .next { s with results := s.results ++
          [.decodedA ⟨BitVec.ofNat 32
            (slice b0.toNat 5 0 * 16777216 + c1.toNat * 65536 + c2.toNat * 256 + c3.toNat), 4⟩] }))

/-- R173: DEC.B, for each of the two lengths byte 0 can name, with the whole state after it. -/
def Obligations.DecBReturnsValueAndLength : Prop :=
  ∀ (value : ValueA) (buffer offset : Nat) (s : State) (b0 : Byte),
    decode (.command ⟨0b111#3, value, buffer, offset⟩) = .ok (.decB buffer offset) ∧
    (memRead s buffer offset = some b0 →
      (slice b0.toNat 7 7 + 1 = 1 →
        exec (.decB buffer offset) s = .next { s with results := s.results ++
          [.decodedB ⟨BitVec.ofNat 16 (slice b0.toNat 6 0), 1⟩] }) ∧
      (∀ c1, slice b0.toNat 7 7 + 1 = 2 → memRead s buffer (offset + 1) = some c1 →
        exec (.decB buffer offset) s = .next { s with results := s.results ++
          [.decodedB ⟨BitVec.ofNat 16 (slice b0.toNat 6 0 * 256 + c1.toNat), 2⟩] }))

/-- Log entry 7 (DESIGN CHOICE, after R74 and R174): each wire form delivers its payload, zero-extended to the container, and its
length, and changes nothing else. -/
def Obligations.WireFormsDeliverTheirPayload : Prop :=
  ∀ s : State,
    (∀ v, exec (.a1 v) s = .next { s with results := s.results ++ [.decodedA ⟨v.setWidth 32, 1⟩] }) ∧
    (∀ v, exec (.a2 v) s = .next { s with results := s.results ++ [.decodedA ⟨v.setWidth 32, 2⟩] }) ∧
    (∀ v, exec (.a3 v) s = .next { s with results := s.results ++ [.decodedA ⟨v.setWidth 32, 3⟩] }) ∧
    (∀ v, exec (.a4 v) s = .next { s with results := s.results ++ [.decodedA ⟨v.setWidth 32, 4⟩] }) ∧
    (∀ v, exec (.b1 v) s = .next { s with results := s.results ++ [.decodedB ⟨v.setWidth 16, 1⟩] }) ∧
    (∀ v, exec (.b2 v) s = .next { s with results := s.results ++ [.decodedB ⟨v.setWidth 16, 2⟩] })

/-- Log entry 7 (DESIGN CHOICE): that a wire form has an `exec` of its own, which delivers its payload and length, is the model's
choice. With it, DEC at a place where the bytes of a form stand is that form: the arithmetic of `extract` and `assemble` (R171) and
the bit drawings of R72 and R73 give the value and length that R174 writes out, on every state. -/
def Obligations.DecIsTheWireFormItReads : Prop :=
  ∀ (f : Format) (s : State) (buffer offset n : Nat) (bytes : List Byte) (i : Instr),
    readBytes s buffer offset n = some bytes → decode (.encoding f bytes) = .ok i →
    exec (decOf f buffer offset) s = exec i s

/-- R170: the fold is the bytes read as one big-endian number with `p0` as its most significant digit. -/
def Obligations.AssembleIsPositional : Prop :=
  ∀ (p0 : Nat) (bytes : List Byte), assemble p0 bytes = p0 * 2 ^ (8 * bytes.length) + bigEndian bytes

/-- R176, R178: a decoded value is at most what its length can hold and so at most `absoluteMax`, it can be encoded again, and its
shortest encoding is no longer than what was read. -/
def Obligations.DecodedValuesStayInRange : Prop :=
  ∀ (f : Format) (buffer offset : Nat) (s t : State), exec (decOf f buffer offset) s = .next t →
    ∃ value n, t.results = s.results ++ [decodedOf f value n] ∧ 1 ≤ n ∧ n ≤ f.maxBytes ∧
      value ≤ f.maxValueForLength n ∧ value ≤ f.absoluteMax ∧
      1 ≤ encodedLength f value ∧ encodedLength f value ≤ n

/-! ## Laws over the operations -/

/-- R200: the round trip. After an ENC of a value that can be encoded, a DEC at the same place, in any later state whose bytes there
are still those, returns the value and its encoded length. -/
def Obligations.RoundTripThroughTheBuffer : Prop :=
  ∀ (f : Format) (value buffer offset : Nat) (s : State), value ≤ f.absoluteMax →
    offset + encodedLength f value ≤ s.bufLen buffer →
    ∃ t, exec (encOf f value buffer offset) s = .next t ∧
      ∀ u : State, (∀ i, i < encodedLength f value → memRead u buffer (offset + i) = memRead t buffer (offset + i)) →
        exec (decOf f buffer offset) u =
          .next { u with results := u.results ++ [decodedOf f value (encodedLength f value)] }

/-- R202: the self-describing length. DLEN returns what DEC returns as `bytesRead`, for any buffer at all; and for every encoding,
shortest or not, the length read from its byte 0 is the length of the encoding. -/
def Obligations.LengthIsSelfDescribing : Prop :=
  (∀ (f : Format) (buffer offset : Nat) (s t : State), exec (decOf f buffer offset) s = .next t →
    ∃ value n, t.results = s.results ++ [decodedOf f value n] ∧
      exec (dlenOf f buffer offset) s = .next { s with results := s.results ++ [.len n] }) ∧
  (∀ (f : Format) (len v : Nat), 1 ≤ len → len ≤ f.maxBytes → v ≤ f.maxValueForLength len →
    ∃ b0 rest, pack f len v = b0 :: rest ∧ (extract f b0).len = len)

/-- R204: offset independence. What ENC returns and writes does not depend on the place, only where it lands does, and the bytes
before `offset` are untouched; what DLEN and DEC return depends on the bytes from `offset` on, taken in order, and not on `offset`
otherwise. -/
def Obligations.OperationsAreOffsetIndependent : Prop :=
  ∀ (f : Format) (buffer offset buffer' offset' : Nat) (s s' t : State),
    (∀ value t', value < 2 ^ f.containerWidth →
      exec (encOf f value buffer offset) s = .next t → exec (encOf f value buffer' offset') s' = .next t' →
      (∃ r, t.results = s.results ++ [r] ∧ t'.results = s'.results ++ [r]) ∧
      (∀ i, i < encodedLength f value →
        memRead t buffer (offset + i) = (canonical f value)[i]? ∧
        memRead t' buffer' (offset' + i) = (canonical f value)[i]?) ∧
      (∀ a, a < offset → memRead t buffer a = memRead s buffer a)) ∧
    (exec (dlenOf f buffer offset) s = .next t → memRead s' buffer' offset' = memRead s buffer offset →
      ∃ r, t.results = s.results ++ [r] ∧
        exec (dlenOf f buffer' offset') s' = .next { s' with results := s'.results ++ [r] }) ∧
    (exec (decOf f buffer offset) s = .next t →
      (∀ i, i < (readSpan s (decOf f buffer offset)).count → memRead s' buffer' (offset' + i) = memRead s buffer (offset + i)) →
      ∃ r, t.results = s.results ++ [r] ∧
        exec (decOf f buffer' offset') s' = .next { s' with results := s'.results ++ [r] })

/-- R206: determinism and locality. The result and the bytes written are a function of the operands and of the bytes the operation
reads: in any other state with those bytes, and room for what is written, it gives the same, and every other byte stays. -/
def Obligations.OutcomeDependsOnTheFootprintOnly : Prop :=
  ∀ (i : Instr) (s s' t : State), exec i s = .next t → precondition s' i = true →
    (∀ b a, (readSpan s i).has b a = true → memRead s' b a = memRead s b a) →
    ∃ r t', exec i s' = .next t' ∧ t.results = s.results ++ [r] ∧ t'.results = s'.results ++ [r] ∧
      (∀ b a, (writeSpan i).has b a = true → memRead t' b a = memRead t b a) ∧
      (∀ b a, (writeSpan i).has b a = false → memRead t' b a = memRead s' b a)

/-- R205: sequential packing. Values encoded back to back from an offset on, then decoded from it, come back in order, the lengths
and values in the results; the encodings fill exactly the sum of their lengths, and every byte outside it is as before. -/
def Obligations.SequentialPackingComesBackInOrder : Prop :=
  ∀ (f : Format) (buffer offset : Nat) (values : List Nat) (s : State),
    (∀ v ∈ values, v ≤ f.absoluteMax) → offset + totalLength f values ≤ s.bufLen buffer →
    s.moves = packingMoves f buffer offset values ++ unpackingMoves f buffer offset values →
    ∃ t : State, Host.Core.run core (2 * values.length) s = .next t ∧ t.moves = [] ∧
      t.results = s.results ++ values.map (fun v => .len (encodedLength f v)) ++
        values.map (fun v => decodedOf f v (encodedLength f v)) ∧
      readBytes t buffer offset (totalLength f values) = some (values.flatMap (canonical f)) ∧
      (∀ b a, ¬(b = buffer ∧ offset ≤ a ∧ a < offset + totalLength f values) → memRead t b a = memRead s b a)

/-- R209: decoding and encoding again gives a shorter or equal encoding, and gives back the same bytes exactly when they were the
shortest form. -/
def Obligations.ReencodingGivesTheSameBytesIffCanonical : Prop :=
  ∀ (f : Format) (buffer offset : Nat) (s t : State), exec (decOf f buffer offset) s = .next t →
    ∃ value n bytes, t.results = s.results ++ [decodedOf f value n] ∧ readBytes s buffer offset n = some bytes ∧
      encodedLength f value ≠ 0 ∧ encodedLength f value ≤ n ∧
      (canonical f value = bytes ↔ encodedLength f value = n)

/-- R212: within one format no encoding is a proper prefix of another, and the shortest encodings keep the numeric order. -/
def Obligations.EncodingsArePrefixFreeAndOrdered : Prop :=
  (∀ (f : Format) (p q : List Byte) (i j : Instr),
    decode (.encoding f p) = .ok i → decode (.encoding f (p ++ q)) = .ok j → q = []) ∧
  (∀ (f : Format) (u v : Nat), u < v → v ≤ f.absoluteMax → canonical f u < canonical f v)

/-! ## Memory, footprints, bounds -/

/-- R45, R46: a byte in bounds can be read; a write in bounds sets its one byte and leaves every other as it was; out of bounds neither
has a meaning. -/
def Obligations.MemWriteSetsOneByte : Prop :=
  ∀ (s : State) (buffer addr : Nat) (v : Byte),
    (addr < s.bufLen buffer →
      (∃ c, memRead s buffer addr = some c) ∧
      ∃ t, memWrite s buffer addr v = some t ∧ memRead t buffer addr = some v ∧
        (∀ b a, ¬(b = buffer ∧ a = addr) → memRead t b a = memRead s b a) ∧ (∀ b, t.bufLen b = s.bufLen b)) ∧
    (s.bufLen buffer ≤ addr → memRead s buffer addr = none ∧ memWrite s buffer addr v = none)

/-- R48: the preconditions, one per operation, under which each of the fourteen instructions completes. The rule speaks of the eight
operations; that the six wire forms are instructions, which complete always, is log entry 7 (DESIGN CHOICE). -/
def Obligations.EveryOperationCompletesWithinBounds : Prop :=
  ∀ (s : State) (buffer offset : Nat),
    (∀ v, ∃ t, exec (.elenA v) s = .next t) ∧ (∀ v, ∃ t, exec (.elenB v) s = .next t) ∧
    (∀ v : ValueA, v.toNat ≤ Format.A.absoluteMax → offset + encodedLength .A v.toNat ≤ s.bufLen buffer →
      ∃ t, exec (.encA v buffer offset) s = .next t) ∧
    (∀ v : ValueB, v.toNat ≤ Format.B.absoluteMax → offset + encodedLength .B v.toNat ≤ s.bufLen buffer →
      ∃ t, exec (.encB v buffer offset) s = .next t) ∧
    (∀ v : ValueA, Format.A.absoluteMax < v.toNat → ∃ t, exec (.encA v buffer offset) s = .next t) ∧
    (∀ v : ValueB, Format.B.absoluteMax < v.toNat → ∃ t, exec (.encB v buffer offset) s = .next t) ∧
    (offset < s.bufLen buffer →
      (∃ t, exec (.dlenA buffer offset) s = .next t) ∧ (∃ t, exec (.dlenB buffer offset) s = .next t)) ∧
    (∀ b0, memRead s buffer offset = some b0 →
      (offset + (extract .A b0).len ≤ s.bufLen buffer → ∃ t, exec (.decA buffer offset) s = .next t) ∧
      (offset + (extract .B b0).len ≤ s.bufLen buffer → ∃ t, exec (.decB buffer offset) s = .next t)) ∧
    (∀ v, ∃ t, exec (.a1 v) s = .next t) ∧ (∀ v, ∃ t, exec (.a2 v) s = .next t) ∧
    (∀ v, ∃ t, exec (.a3 v) s = .next t) ∧ (∀ v, ∃ t, exec (.a4 v) s = .next t) ∧
    (∀ v, ∃ t, exec (.b1 v) s = .next t) ∧ (∀ v, ∃ t, exec (.b2 v) s = .next t)

/-- R47 and D9 (the refusal is the spec's own decision): an operation is refused exactly where its precondition fails. -/
def Obligations.RefusedExactlyOutOfBounds : Prop :=
  ∀ (i : Instr) (s : State), exec i s = .refused .outOfBounds ↔ precondition s i = false

/-- R50, R51: the frame. Only the bytes an operation writes change; one that writes none leaves the buffers as they are. -/
def Obligations.OnlyTheWrittenBytesChange : Prop :=
  ∀ (i : Instr) (s t : State), exec i s = .next t →
    (∀ b a, (writeSpan i).has b a = false → memRead t b a = memRead s b a) ∧
    ((writeSpan i).count = 0 → t.buffers = s.buffers)

/-- R26, R28: an operation that completes delivers exactly one result, at the end of those before it, and neither resizes, hands over
nor drops a buffer, nor touches the host's moves. -/
def Obligations.EachOperationDeliversOneResult : Prop :=
  ∀ (i : Instr) (s t : State), exec i s = .next t →
    (∃ r, t.results = s.results ++ [r]) ∧ t.moves = s.moves ∧ t.provided = s.provided ∧
    ∀ b, t.bufLen b = s.bufLen b

/-- Log entry 13 (DESIGN CHOICE, after the spec's D15): R58 speaks of operations in progress at once, and the model runs one at a
time, so what R58 promises of disjoint footprints is stated as commutation. Two operations of which neither writes a byte the other
reads or writes give the same results and the same bytes in either order. -/
def Obligations.DisjointOperationsCommute : Prop :=
  ∀ (i j : Instr) (s t u : State), exec i s = .next t → exec j t = .next u →
    (∀ b a, (writeSpan i).has b a = true → (writeSpan j).has b a = false ∧ (readSpan s j).has b a = false) →
    (∀ b a, (writeSpan j).has b a = true → (readSpan s i).has b a = false) →
    ∃ t' u' r q, exec j s = .next t' ∧ exec i t' = .next u' ∧
      u.results = s.results ++ [r, q] ∧ u'.results = s.results ++ [q, r] ∧
      ∀ b a, memRead u' b a = memRead u b a

/-! ## The invariant and reset -/

/-- Every step that goes on keeps the invariant: canonical memories inside their buffers, buffer names rising, hand-over numbers
apart, and every delivered result in its range. -/
def Obligations.StepKeepsTheInvariant : Prop :=
  ∀ s t : State, s.Inv → step s = .next t → t.Inv

def Obligations.ResetMeetsTheInvariant : Prop :=
  State.reset.Inv

/-- R260, D18 (the spec's own decision), log entry 1: after reset the codec is idle, no buffer is handed over, so no byte is
readable, no result is delivered, and a step changes nothing. -/
def Obligations.ResetIsIdleAndHoldsNothing : Prop :=
  (∀ b a, memRead State.reset b a = none) ∧ State.reset.moves = [] ∧ State.reset.results = [] ∧
  step State.reset = .next State.reset
end

