-- ==== Sys2Proof/Laws/Decode.lean ====
section
/-! SUPPORT. The decoder inverted: what bytes present each wire form, and concatenations of bits as numbers. -/

namespace Sys2Proof.Machine

/-- A concatenation as a number: the high part times the weight of the low part, plus the low part. -/
theorem toNat_append_eq {m n : Nat} (x : BitVec m) (y : BitVec n) : (x ++ y).toNat = x.toNat * 2 ^ n + y.toNat := by
  rw [BitVec.toNat_append, ← Nat.shiftLeft_add_eq_or_of_lt y.isLt, Nat.shiftLeft_eq]

/-- A two-bit selector that is none of the first three codes is the fourth: Format A has no free header code (R80). -/
theorem selector_last_A (k : BitVec 2) : k ≠ 0#2 → k ≠ 1#2 → k ≠ 2#2 → k = 3#2 := by revert k; decide

theorem selector_last_B (k : BitVec 1) : k ≠ 0#1 → k = 1#1 := by revert k; decide

/-- Byte 0 is its selector followed by its first payload bits (R70, R72). -/
theorem firstByte_A {b0 : Byte} {k : BitVec 2} (h : b0.extractLsb' 6 2 = k) : k ++ payloadBitsA b0 = b0 := by
  subst h; exact BitVec.extractLsb'_append_extractLsb' (w := 2) (len := 6)

theorem firstByte_B {b0 : Byte} {k : BitVec 1} (h : b0.extractLsb' 7 1 = k) : k ++ payloadBitsB b0 = b0 := by
  subst h; exact BitVec.extractLsb'_append_extractLsb' (w := 1) (len := 7)

/-- The bytes that present each form of Format A. -/
theorem decodeWireA_cases {bytes tail : List Byte} {i : Instr} (h : decodeWireA bytes = .ok (i, tail)) :
    ∃ b0 : Byte,
      (b0.extractLsb' 6 2 = 0#2 ∧ bytes = b0 :: tail ∧ i = .a1 (payloadBitsA b0)) ∨
      (∃ c1, b0.extractLsb' 6 2 = 1#2 ∧ bytes = b0 :: c1 :: tail ∧ i = .a2 (payloadBitsA b0 ++ c1)) ∨
      (∃ c1 c2, b0.extractLsb' 6 2 = 2#2 ∧ bytes = b0 :: c1 :: c2 :: tail ∧ i = .a3 (payloadBitsA b0 ++ c1 ++ c2)) ∨
      (∃ c1 c2 c3, b0.extractLsb' 6 2 = 3#2 ∧ bytes = b0 :: c1 :: c2 :: c3 :: tail ∧
        i = .a4 (payloadBitsA b0 ++ c1 ++ c2 ++ c3)) := by
  cases bytes with
  | nil => simp [decodeWireA] at h
  | cons b0 rest =>
    refine ⟨b0, ?_⟩
    simp only [decodeWireA] at h
    split at h
    · left; simp_all
    split at h
    · split at h
      · right; left; simp_all
      · simp at h
    split at h
    · split at h
      · right; right; left; simp_all
      · simp at h
    · split at h
      · rename_i h1 h2 h3 _ _ _ _ _
        have := selector_last_A _ h1 h2 h3
        right; right; right; simp_all
      · simp at h

/-- The bytes that present each form of Format B. -/
theorem decodeWireB_cases {bytes tail : List Byte} {i : Instr} (h : decodeWireB bytes = .ok (i, tail)) :
    ∃ b0 : Byte,
      (b0.extractLsb' 7 1 = 0#1 ∧ bytes = b0 :: tail ∧ i = .b1 (payloadBitsB b0)) ∨
      (∃ c1, b0.extractLsb' 7 1 = 1#1 ∧ bytes = b0 :: c1 :: tail ∧ i = .b2 (payloadBitsB b0 ++ c1)) := by
  cases bytes with
  | nil => simp [decodeWireB] at h
  | cons b0 rest =>
    refine ⟨b0, ?_⟩
    simp only [decodeWireB] at h
    split at h
    · left; simp_all
    · split at h
      · rename_i h1 _ _ _
        have := selector_last_B _ h1
        right; simp_all
      · simp at h

/-- A whole encoding leaves no byte over. -/
theorem decodeWire_of_whole {f : Format} {bytes : List Byte} {i : Instr} (h : decode (.encoding f bytes) = .ok i) :
    decodeWire f bytes = .ok (i, []) := by
  simp only [decode, decodeWireWhole] at h
  split at h <;> simp_all

end Sys2Proof.Machine
end

