-- ==== Sys2Proof/Laws/State.lean ====
section
/-! SUPPORT. What each update of the state leaves in each field, and what reading a byte sees of it. -/

namespace Sys2Proof.Machine

@[simp] theorem State.deliver_buffers (s : State) (r : Result) : (s.deliver r).buffers = s.buffers := rfl
@[simp] theorem State.deliver_provided (s : State) (r : Result) : (s.deliver r).provided = s.provided := rfl
@[simp] theorem State.deliver_moves (s : State) (r : Result) : (s.deliver r).moves = s.moves := rfl
@[simp] theorem State.deliver_results (s : State) (r : Result) : (s.deliver r).results = s.results ++ [r] := rfl

@[simp] theorem State.provide_buffers (s : State) (buffer len : Nat) :
    (s.provide buffer len).buffers = tableSet s.buffers buffer ⟨len, s.provided, []⟩ := rfl
@[simp] theorem State.provide_provided (s : State) (buffer len : Nat) :
    (s.provide buffer len).provided = s.provided + 1 := rfl
@[simp] theorem State.provide_moves (s : State) (buffer len : Nat) : (s.provide buffer len).moves = s.moves := rfl
@[simp] theorem State.provide_results (s : State) (buffer len : Nat) : (s.provide buffer len).results = s.results := rfl

/-- Reading a byte sees the buffers only. -/
theorem memRead_congr {s t : State} (h : t.buffers = s.buffers) (b a : Nat) : memRead t b a = memRead s b a := by
  simp [memRead, h]

theorem State.bufLen_congr {s t : State} (h : t.buffers = s.buffers) (b : Nat) : t.bufLen b = s.bufLen b := by
  simp [State.bufLen, h]

@[simp] theorem memRead_deliver (s : State) (r : Result) (b a : Nat) : memRead (s.deliver r) b a = memRead s b a := rfl
@[simp] theorem State.bufLen_deliver (s : State) (r : Result) (b : Nat) : (s.deliver r).bufLen b = s.bufLen b := rfl
@[simp] theorem memRead_withResults (s : State) (rs : List Result) (b a : Nat) :
    memRead { s with results := rs } b a = memRead s b a := rfl
@[simp] theorem State.bufLen_withResults (s : State) (rs : List Result) (b : Nat) :
    State.bufLen { s with results := rs } b = s.bufLen b := rfl
@[simp] theorem memRead_withMoves (s : State) (ms : List HostMove) (b a : Nat) :
    memRead { s with moves := ms } b a = memRead s b a := rfl
@[simp] theorem State.bufLen_withMoves (s : State) (ms : List HostMove) (b : Nat) :
    State.bufLen { s with moves := ms } b = s.bufLen b := rfl

end Sys2Proof.Machine
end

