-- ==== Sys2Proof/Laws/Memory.lean ====
section
/-! SUPPORT. The tables and the bytes of the buffers: read after write, the frame of a write, and the canonical form. -/

namespace Sys2Proof.Machine

/-! ## Tables -/

theorem tableGet_tableSet_same {α : Type} (t : List (Nat × α)) (k : Nat) (v : α) :
    tableGet (tableSet t k v) k = some v := by
  induction t with
  | nil => simp [tableSet, tableGet]
  | cons e rest ih =>
    obtain ⟨k', x⟩ := e
    by_cases h : k = k'
    · simp [tableSet, tableGet, h]
    · by_cases h' : k < k'
      · simp [tableSet, tableGet, h, h']
      · simp [tableSet, tableGet, h, h', Ne.symm h, ih]

theorem tableGet_tableSet_other {α : Type} (t : List (Nat × α)) {k j : Nat} (v : α) (hj : j ≠ k) :
    tableGet (tableSet t k v) j = tableGet t j := by
  induction t with
  | nil => simp [tableSet, tableGet, Ne.symm hj]
  | cons e rest ih =>
    obtain ⟨k', x⟩ := e
    by_cases h : k = k'
    · subst h; simp [tableSet, tableGet, Ne.symm hj]
    · by_cases h' : k < k'
      · simp [tableSet, tableGet, h, h', Ne.symm hj]
      · simp [tableSet, tableGet, h, h', ih]

/-- An entry of a table with one entry set is that entry or one of another key. -/
theorem mem_tableSet {α : Type} {t : List (Nat × α)} {k : Nat} {v : α} {e : Nat × α} (h : e ∈ tableSet t k v) :
    e = (k, v) ∨ e ∈ t := by
  induction t with
  | nil => simpa [tableSet] using h
  | cons d rest ih =>
    obtain ⟨k', x⟩ := d
    simp only [tableSet] at h
    split at h
    · simp only [List.mem_cons] at h ⊢; tauto
    · split at h
      · simp only [List.mem_cons] at h ⊢; tauto
      · simp only [List.mem_cons] at h ⊢
        rcases h with h | h
        · exact .inr (.inl h)
        · exact (ih h).imp id .inr

theorem tableSet_sorted {α : Type} {t : List (Nat × α)} (k : Nat) (v : α) (h : tableSorted t) :
    tableSorted (tableSet t k v) := by
  induction t with
  | nil => simp [tableSet]
  | cons d rest ih =>
    obtain ⟨k', x⟩ := d
    rw [tableSorted, List.pairwise_cons] at h
    simp only [tableSet]
    split
    · rename_i hk; subst hk
      exact List.pairwise_cons.2 ⟨h.1, h.2⟩
    · split
      · rename_i hlt
        refine List.pairwise_cons.2 ⟨fun e he => ?_, List.pairwise_cons.2 h⟩
        rcases List.mem_cons.1 he with rfl | he
        · exact hlt
        · exact hlt.trans (h.1 e he)
      · refine List.pairwise_cons.2 ⟨fun e he => ?_, ih h.2⟩
        rcases mem_tableSet he with rfl | he
        · simp only; omega
        · exact h.1 e he

/-- The entry of a key stands in the table. -/
theorem mem_of_tableGet {α : Type} {t : List (Nat × α)} {k : Nat} {x : α} (h : tableGet t k = some x) :
    (k, x) ∈ t := by
  induction t with
  | nil => simp [tableGet] at h
  | cons d rest ih =>
    obtain ⟨k', y⟩ := d
    simp only [tableGet] at h
    split at h
    · rename_i hk; simp_all
    · exact List.mem_cons_of_mem _ (ih h)

/-! ## One byte -/

/-- A byte is readable exactly below `BUF_LEN` (R45, R47). -/
theorem memRead_isSome_iff (s : State) (b a : Nat) : (memRead s b a).isSome ↔ a < s.bufLen b := by
  unfold memRead State.bufLen Buffer.byteAt
  cases tableGet s.buffers b with
  | none => simp
  | some x => by_cases h : a < x.len <;> simp [h]

theorem memRead_eq_none_iff (s : State) (b a : Nat) : memRead s b a = none ↔ s.bufLen b ≤ a := by
  have := memRead_isSome_iff s b a
  cases h : memRead s b a <;> simp_all

/-- A write in bounds lands, and one out of bounds does not (R46, R47). -/
theorem memWrite_isSome_iff (s : State) (b a : Nat) (v : Byte) : (memWrite s b a v).isSome ↔ a < s.bufLen b := by
  unfold memWrite State.bufLen
  cases tableGet s.buffers b with
  | none => simp
  | some x => by_cases h : a < x.len <;> simp [h]

/-- Everything a write does: it changes one buffer's written bytes, in one place. -/
theorem memWrite_cases {s t : State} {b a : Nat} {v : Byte} (h : memWrite s b a v = some t) :
    ∃ x, tableGet s.buffers b = some x ∧ a < x.len ∧
      t = { s with buffers := tableSet s.buffers b { x with cells := tableSet x.cells a v } } := by
  unfold memWrite at h
  split at h
  · rename_i x hx
    split at h
    · exact ⟨x, hx, ‹_›, by simpa using h.symm⟩
    · simp at h
  · simp at h

/-- What a write leaves in the fields other than the buffers. -/
theorem memWrite_fields {s t : State} {b a : Nat} {v : Byte} (h : memWrite s b a v = some t) :
    t.moves = s.moves ∧ t.results = s.results ∧ t.provided = s.provided := by
  obtain ⟨x, -, -, rfl⟩ := memWrite_cases h
  exact ⟨rfl, rfl, rfl⟩

theorem memWrite_bufLen {s t : State} {b a : Nat} {v : Byte} (h : memWrite s b a v = some t) (c : Nat) :
    t.bufLen c = s.bufLen c := by
  obtain ⟨x, hx, -, rfl⟩ := memWrite_cases h
  unfold State.bufLen
  by_cases hc : c = b
  · subst hc; simp [tableGet_tableSet_same, hx]
  · simp [tableGet_tableSet_other _ _ hc]

/-- Reading after a write: the byte written at its place, what was there everywhere else (R46, R51). -/
theorem memRead_memWrite {s t : State} {b a : Nat} {v : Byte} (h : memWrite s b a v = some t) (c i : Nat) :
    memRead t c i = if c = b ∧ i = a then some v else memRead s c i := by
  obtain ⟨x, hx, ha, rfl⟩ := memWrite_cases h
  unfold memRead
  by_cases hc : c = b
  · subst hc
    by_cases hi : i = a
    · subst hi; simp [tableGet_tableSet_same, Buffer.byteAt, ha]
    · simp [tableGet_tableSet_same, Buffer.byteAt, hx, hi, tableGet_tableSet_other _ _ hi]
  · simp [tableGet_tableSet_other _ _ hc, hc]

/-! ## Consecutive bytes -/

theorem readBytes_length {s : State} {b : Nat} {n a : Nat} {bytes : List Byte}
    (h : readBytes s b a n = some bytes) : bytes.length = n := by
  induction n generalizing a bytes with
  | zero => simp_all [readBytes]
  | succ n ih =>
    simp only [readBytes, Option.bind_eq_some_iff, Option.map_eq_some_iff] at h
    obtain ⟨c, -, rest, hrest, rfl⟩ := h
    simp [ih hrest]

/-- The bytes read are the bytes at the addresses, in order. -/
theorem readBytes_eq_some_iff {s : State} {b : Nat} {n a : Nat} {bytes : List Byte} :
    readBytes s b a n = some bytes ↔ bytes.length = n ∧ ∀ i, i < n → memRead s b (a + i) = bytes[i]? := by
  induction n generalizing a bytes with
  | zero => cases bytes <;> simp [readBytes]
  | succ n ih =>
    simp only [readBytes, Option.bind_eq_some_iff, Option.map_eq_some_iff]
    constructor
    · rintro ⟨c, hc, rest, hrest, rfl⟩
      obtain ⟨hlen, hall⟩ := ih.1 hrest
      refine ⟨by simp [hlen], fun i hi => ?_⟩
      cases i with
      | zero => simpa using hc
      | succ i => simpa [Nat.add_assoc, Nat.add_comm 1] using hall i (by omega)
    · rintro ⟨hlen, hall⟩
      obtain ⟨c, rest, rfl⟩ : ∃ c rest, bytes = c :: rest := by
        cases bytes with
        | nil => simp at hlen
        | cons c rest => exact ⟨c, rest, rfl⟩
      refine ⟨c, by simpa using hall 0 (by omega), rest, ih.2 ⟨by simpa using hlen, fun i hi => ?_⟩, rfl⟩
      simpa [Nat.add_assoc, Nat.add_comm 1] using hall (i + 1) (by omega)

/-- Reading is refused exactly where the last byte is out of bounds. -/
theorem readBytes_isSome_iff (s : State) (b : Nat) (n a : Nat) :
    (readBytes s b a n).isSome ↔ n = 0 ∨ a + n ≤ s.bufLen b := by
  induction n generalizing a with
  | zero => simp [readBytes]
  | succ n ih =>
    have h1 := memRead_isSome_iff s b a
    have h2 := ih (a + 1)
    cases hr : memRead s b a with
    | none => simp_all [readBytes]; omega
    | some c => simp_all [readBytes]; omega

/-- Everything writing consecutive bytes does (R46, R50, R51): it lands exactly where every byte is in bounds, and then those bytes
are the ones written, every other byte is as it was, and no other field changes. -/
theorem writeBytes_isSome_iff (s : State) (b : Nat) (vs : List Byte) (a : Nat) :
    (writeBytes s b a vs).isSome ↔ vs = [] ∨ a + vs.length ≤ s.bufLen b := by
  induction vs generalizing s a with
  | nil => simp [writeBytes]
  | cons v vs ih =>
    have h1 := memWrite_isSome_iff s b a v
    cases hw : memWrite s b a v with
    | none => simp_all [writeBytes]; omega
    | some u =>
      have h2 := ih u (a + 1)
      rw [memWrite_bufLen hw] at h2
      cases vs with
      | nil => simp_all [writeBytes]
      | cons => simp_all [writeBytes]; omega

theorem writeBytes_fields {s t : State} {b a : Nat} {vs : List Byte} (h : writeBytes s b a vs = some t) :
    t.moves = s.moves ∧ t.results = s.results ∧ t.provided = s.provided ∧ ∀ c, t.bufLen c = s.bufLen c := by
  induction vs generalizing s a with
  | nil => simp_all [writeBytes]
  | cons v vs ih =>
    simp only [writeBytes, Option.bind_eq_some_iff] at h
    obtain ⟨u, hu, ht⟩ := h
    obtain ⟨h1, h2, h3, h4⟩ := ih ht
    obtain ⟨g1, g2, g3⟩ := memWrite_fields hu
    exact ⟨h1.trans g1, h2.trans g2, h3.trans g3, fun c => (h4 c).trans (memWrite_bufLen hu c)⟩

theorem memRead_writeBytes {s t : State} {b a : Nat} {vs : List Byte} (h : writeBytes s b a vs = some t) (c i : Nat) :
    memRead t c i = if c = b ∧ a ≤ i ∧ i < a + vs.length then vs[i - a]? else memRead s c i := by
  induction vs generalizing s a with
  | nil =>
    simp only [writeBytes, Option.some.injEq] at h
    subst h
    rw [if_neg (by simp)]
  | cons v vs ih =>
    simp only [writeBytes, Option.bind_eq_some_iff] at h
    obtain ⟨u, hu, ht⟩ := h
    rw [ih ht, memRead_memWrite hu]
    by_cases hc : c = b
    · by_cases hi : i = a
      · subst hi; simp [hc]
      · by_cases hge : a + 1 ≤ i
        · have : i - a = i - (a + 1) + 1 := by omega
          simp [hc, hi, this, hge, show a ≤ i by omega, Nat.add_assoc, Nat.add_comm 1]
        · simp [hc, hi, hge, show ¬ a ≤ i by omega]
    · simp [hc]

/-! ## The canonical form -/

/-- Every operation on the buffers keeps their memories canonical, the buffer names rising, and no byte listed at or above
`BUF_LEN`. -/
theorem memWrite_keeps_wf {s t : State} {b a : Nat} {v : Byte} (h : memWrite s b a v = some t)
    (hw : tableSorted s.buffers ∧ ∀ e ∈ s.buffers, Memory.wf e.2.cells ∧ ∀ c ∈ e.2.cells, c.1 < e.2.len) :
    tableSorted t.buffers ∧ ∀ e ∈ t.buffers, Memory.wf e.2.cells ∧ ∀ c ∈ e.2.cells, c.1 < e.2.len := by
  obtain ⟨x, hx, ha, rfl⟩ := memWrite_cases h
  refine ⟨tableSet_sorted _ _ hw.1, fun e he => ?_⟩
  rcases mem_tableSet he with rfl | he
  · have hxm := hw.2 _ (mem_of_tableGet hx)
    refine ⟨tableSet_sorted _ _ hxm.1, fun c hc => ?_⟩
    rcases mem_tableSet hc with rfl | hc
    · exact ha
    · exact hxm.2 c hc
  · exact hw.2 e he

theorem writeBytes_keeps_wf {s t : State} {b a : Nat} {vs : List Byte} (h : writeBytes s b a vs = some t)
    (hw : tableSorted s.buffers ∧ ∀ e ∈ s.buffers, Memory.wf e.2.cells ∧ ∀ c ∈ e.2.cells, c.1 < e.2.len) :
    tableSorted t.buffers ∧ ∀ e ∈ t.buffers, Memory.wf e.2.cells ∧ ∀ c ∈ e.2.cells, c.1 < e.2.len := by
  induction vs generalizing s a with
  | nil => simp only [writeBytes, Option.some.injEq] at h; exact h ▸ hw
  | cons v vs ih =>
    simp only [writeBytes, Option.bind_eq_some_iff] at h
    obtain ⟨u, hu, ht⟩ := h
    exact ih ht (memWrite_keeps_wf hu hw)

theorem provide_keeps_wf {s : State} (buffer len : Nat)
    (hw : tableSorted s.buffers ∧ ∀ e ∈ s.buffers, Memory.wf e.2.cells ∧ ∀ c ∈ e.2.cells, c.1 < e.2.len) :
    tableSorted (s.provide buffer len).buffers ∧
      ∀ e ∈ (s.provide buffer len).buffers, Memory.wf e.2.cells ∧ ∀ c ∈ e.2.cells, c.1 < e.2.len := by
  refine ⟨tableSet_sorted _ _ hw.1, fun e he => ?_⟩
  rcases mem_tableSet he with rfl | he
  · simp
  · exact hw.2 e he

theorem reset_memory_wf : tableSorted State.reset.buffers ∧ ∀ e ∈ State.reset.buffers, Memory.wf e.2.cells := by
  decide

end Sys2Proof.Machine
end

