-- ==== Sys2Proof/Laws/Ops.lean ====
section
/-! SUPPORT. The pure functions of the parts, form by form, and what each shared operation can answer. -/

namespace Sys2Proof

/-! ## The formats -/

@[simp] theorem Format.headerBits_A : Format.A.headerBits = 2 := rfl
@[simp] theorem Format.headerBits_B : Format.B.headerBits = 1 := rfl
@[simp] theorem Format.maxBytes_A : Format.A.maxBytes = 4 := rfl
@[simp] theorem Format.maxBytes_B : Format.B.maxBytes = 2 := rfl
@[simp] theorem Format.absoluteMax_A : Format.A.absoluteMax = 1073741823 := rfl
@[simp] theorem Format.absoluteMax_B : Format.B.absoluteMax = 32767 := rfl
@[simp] theorem Format.containerWidth_A : Format.A.containerWidth = 32 := rfl
@[simp] theorem Format.containerWidth_B : Format.B.containerWidth = 16 := rfl

end Sys2Proof

namespace Sys2Proof.Machine

/-! ## The length selector by thresholds -/

theorem encodedLength_A (v : Nat) : encodedLength .A v =
    if 1073741823 < v then 0 else if v ≤ 63 then 1 else if v ≤ 16383 then 2 else if v ≤ 4194303 then 3 else 4 := by
  simp only [encodedLength, Format.absoluteMax_A, Format.maxBytes_A, List.range', List.find?_cons,
    Format.maxValueForLength, Format.headerBits_A]
  repeat' split
  all_goals simp_all

theorem encodedLength_B (v : Nat) : encodedLength .B v =
    if 32767 < v then 0 else if v ≤ 127 then 1 else 2 := by
  simp only [encodedLength, Format.absoluteMax_B, Format.maxBytes_B, List.range', List.find?_cons,
    Format.maxValueForLength, Format.headerBits_B]
  repeat' split
  all_goals simp_all

/-! ## `pack`, form by form, as numbers -/

theorem pack_length (f : Format) (len v : Nat) : (pack f len v).length = len := by simp [pack]

theorem encodingNumber_eq {f : Format} {len v : Nat} (h : v < 2 ^ (8 * len - f.headerBits)) :
    encodingNumber f len v = (len - 1) * 2 ^ (8 * len - f.headerBits) + v := by
  rw [encodingNumber, ← Nat.shiftLeft_add_eq_or_of_lt h, Nat.shiftLeft_eq]

/-- The low byte of a shifted number. -/
theorem byteOf_shift (e k : Nat) : BitVec.ofNat 8 ((e >>> k) &&& 0xFF) = BitVec.ofNat 8 (e / 2 ^ k) := by
  apply BitVec.eq_of_toNat_eq
  rw [show (0xFF : Nat) = 2 ^ 8 - 1 from rfl, Nat.and_two_pow_sub_one_eq_mod, Nat.shiftRight_eq_div_pow]
  simp

theorem pack_A1 {v : Nat} (h : v ≤ 63) : pack .A 1 v = [BitVec.ofNat 8 v] := by
  have e := encodingNumber_eq (f := .A) (len := 1) (v := v) (by simp; omega)
  simp only [pack, List.range, List.range.loop, List.map, byteOf_shift, e]
  simp

theorem pack_A2 {v : Nat} (h : v ≤ 16383) :
    pack .A 2 v = [BitVec.ofNat 8 (64 + v / 256), BitVec.ofNat 8 v] := by
  have e := encodingNumber_eq (f := .A) (len := 2) (v := v) (by simp; omega)
  simp only [pack, List.range, List.range.loop, List.map, byteOf_shift, e]
  simp only [Format.headerBits_A, List.cons.injEq, and_true]
  constructor <;> apply BitVec.eq_of_toNat_eq <;> simp <;> omega

theorem pack_A3 {v : Nat} (h : v ≤ 4194303) :
    pack .A 3 v = [BitVec.ofNat 8 (128 + v / 65536), BitVec.ofNat 8 (v / 256), BitVec.ofNat 8 v] := by
  have e := encodingNumber_eq (f := .A) (len := 3) (v := v) (by simp; omega)
  simp only [pack, List.range, List.range.loop, List.map, byteOf_shift, e]
  simp only [Format.headerBits_A, List.cons.injEq, and_true]
  refine ⟨?_, ?_, ?_⟩ <;> apply BitVec.eq_of_toNat_eq <;> simp <;> omega

theorem pack_A4 {v : Nat} (h : v ≤ 1073741823) :
    pack .A 4 v = [BitVec.ofNat 8 (192 + v / 16777216), BitVec.ofNat 8 (v / 65536), BitVec.ofNat 8 (v / 256),
      BitVec.ofNat 8 v] := by
  have e := encodingNumber_eq (f := .A) (len := 4) (v := v) (by simp; omega)
  simp only [pack, List.range, List.range.loop, List.map, byteOf_shift, e]
  simp only [Format.headerBits_A, List.cons.injEq, and_true]
  refine ⟨?_, ?_, ?_, ?_⟩ <;> apply BitVec.eq_of_toNat_eq <;> simp <;> omega

theorem pack_B1 {v : Nat} (h : v ≤ 127) : pack .B 1 v = [BitVec.ofNat 8 v] := by
  have e := encodingNumber_eq (f := .B) (len := 1) (v := v) (by simp; omega)
  simp only [pack, List.range, List.range.loop, List.map, byteOf_shift, e]
  simp

theorem pack_B2 {v : Nat} (h : v ≤ 32767) :
    pack .B 2 v = [BitVec.ofNat 8 (128 + v / 256), BitVec.ofNat 8 v] := by
  have e := encodingNumber_eq (f := .B) (len := 2) (v := v) (by simp; omega)
  simp only [pack, List.range, List.range.loop, List.map, byteOf_shift, e]
  simp only [Format.headerBits_B, List.cons.injEq, and_true]
  constructor <;> apply BitVec.eq_of_toNat_eq <;> simp <;> omega

/-! ## `extract` and `assemble` as numbers -/

theorem extract_A (b0 : Byte) : extract .A b0 = ⟨b0.toNat / 64, b0.toNat / 64 + 1, b0.toNat % 64⟩ := by
  simp only [extract, Format.headerBits_A, Nat.shiftRight_eq_div_pow, Nat.and_two_pow_sub_one_eq_mod]

theorem extract_B (b0 : Byte) : extract .B b0 = ⟨b0.toNat / 128, b0.toNat / 128 + 1, b0.toNat % 128⟩ := by
  simp only [extract, Format.headerBits_B, Nat.shiftRight_eq_div_pow, Nat.and_two_pow_sub_one_eq_mod]

/-- One step of the fold: the OR of a shifted value and a byte is their sum (R170). -/
theorem fold_step (value : Nat) (c : Byte) : (value <<< 8) ||| c.toNat = value * 256 + c.toNat := by
  rw [← Nat.shiftLeft_add_eq_or_of_lt (by have := c.isLt; simpa using this), Nat.shiftLeft_eq]

@[simp] theorem assemble_nil (p0 : Nat) : assemble p0 [] = p0 := rfl

theorem assemble_cons (p0 : Nat) (c : Byte) (cs : List Byte) :
    assemble p0 (c :: cs) = assemble (p0 * 256 + c.toNat) cs := by
  simp [assemble, fold_step]

/-! ## What the shared operations can answer -/

/-- ENC answers next in one of two ways: on overflow, with nothing accessed, or after writing its bytes (R122, R125). -/
theorem doEncode_cases {f : Format} {v b o : Nat} {s t : State} (h : doEncode f v b o s = .next t) :
    (encodedLength f v = 0 ∧ t = s.deliver (.len 0)) ∨
    (encodedLength f v ≠ 0 ∧ ∃ u, writeBytes s b o (pack f (encodedLength f v) v) = some u ∧
      t = u.deliver (.len (encodedLength f v))) := by
  unfold doEncode overflowed at h
  split at h
  · exact .inl ⟨by simp_all, by simpa using h.symm⟩
  · split at h
    · exact .inr ⟨by simp_all, _, ‹_›, by simpa using h.symm⟩
    · simp at h

/-- DLEN answers next exactly where its byte is readable. -/
theorem doDecodedLength_cases {f : Format} {b o : Nat} {s t : State} (h : doDecodedLength f b o s = .next t) :
    ∃ b0, memRead s b o = some b0 ∧ t = s.deliver (.len (extract f b0).len) := by
  unfold doDecodedLength at h
  split at h
  · exact ⟨_, ‹_›, by simpa using h.symm⟩
  · simp at h

/-- The decoder answers exactly where its whole footprint is readable, and then gives the value and the length of those bytes. -/
theorem decodeAt_eq_some_iff {f : Format} {b o : Nat} {s : State} {r : Nat × Nat} :
    decodeAt f b o s = some r ↔
      ∃ b0 rest, memRead s b o = some b0 ∧ readBytes s b (o + 1) ((extract f b0).len - 1) = some rest ∧
        r = (assemble (extract f b0).p0 rest, (extract f b0).len) := by
  unfold decodeAt
  simp only [Option.bind_eq_some_iff, Option.map_eq_some_iff]
  constructor
  · rintro ⟨b0, h0, rest, h1, rfl⟩; exact ⟨b0, rest, h0, h1, rfl⟩
  · rintro ⟨b0, rest, h0, h1, rfl⟩; exact ⟨b0, h0, rest, h1, rfl⟩

/-- The front of a read is a read of one byte and a read of the rest. -/
theorem readBytes_cons {s : State} {b o n : Nat} {c : Byte} {cs : List Byte} (h : readBytes s b o n = some (c :: cs)) :
    memRead s b o = some c ∧ readBytes s b (o + 1) cs.length = some cs := by
  have hl := readBytes_length h
  subst hl
  simpa [readBytes, Option.bind_eq_some_iff] using h

/-- The decoder as one read of its footprint (R50, R171). -/
theorem decodeAt_footprint {f : Format} {b o : Nat} {s : State} {r : Nat × Nat} :
    decodeAt f b o s = some r ↔
      ∃ b0 rest, readBytes s b o (extract f b0).len = some (b0 :: rest) ∧
        r = (assemble (extract f b0).p0 rest, (extract f b0).len) := by
  rw [decodeAt_eq_some_iff]
  have hl : ∀ b0 : Byte, (extract f b0).len = ((extract f b0).len - 1) + 1 := fun b0 => by simp [extract]
  constructor
  · rintro ⟨b0, rest, h0, h1, rfl⟩
    refine ⟨b0, rest, ?_, rfl⟩
    rw [hl]
    simp [readBytes, h0, h1]
  · rintro ⟨b0, rest, h, rfl⟩
    refine ⟨b0, rest, (readBytes_cons h).1, ?_, rfl⟩
    have hlen := readBytes_length h
    rw [← hlen]
    simpa using (readBytes_cons h).2

/-- DEC of either format answers next exactly where the decoder answers. -/
theorem execDec_cases {f : Format} {b o : Nat} {s t : State} (h : exec (decOf f b o) s = .next t) :
    ∃ value n, decodeAt f b o s = some (value, n) ∧ t = s.deliver (decodedOf f value n) := by
  cases f <;> simp only [decOf, exec, execDecA, execDecB] at h <;> split at h <;> simp_all [decodedOf]

/-- DEC answers next where the decoder answers. -/
theorem execDec_of_decodeAt {f : Format} {b o : Nat} {s : State} {value n : Nat}
    (h : decodeAt f b o s = some (value, n)) : exec (decOf f b o) s = .next (s.deliver (decodedOf f value n)) := by
  cases f <;> simp [decOf, exec, execDecA, execDecB, h, decodedOf]

/-- ENC of a format, on a value of its container, is the shared operation. -/
theorem execEnc_eq {f : Format} {v b o : Nat} {s : State} (hv : v < 2 ^ f.containerWidth) :
    exec (encOf f v b o) s = doEncode f v b o s := by
  cases f <;> simp only [Format.containerWidth_A, Format.containerWidth_B] at hv <;>
    simp only [encOf, exec, execEncA, execEncB, BitVec.toNat_ofNat, Nat.mod_eq_of_lt hv]

theorem execDlen_eq (f : Format) (b o : Nat) (s : State) : exec (dlenOf f b o) s = doDecodedLength f b o s := by
  cases f <;> rfl

/-! ## What an instruction can do -/

/-- Everything an instruction that completes can do to the state: it delivers one result, having written at most the bytes of its
write span, and every one of those. -/
theorem exec_cases {i : Instr} {s t : State} (h : exec i s = .next t) :
    ∃ u r, t = u.deliver r ∧
      (((writeSpan i).count = 0 ∧ u = s) ∨
       ∃ bytes, bytes.length = (writeSpan i).count ∧
        writeBytes s (writeSpan i).buffer (writeSpan i).start bytes = some u) := by
  have enc : ∀ {f : Format} {v b o : Nat}, doEncode f v b o s = .next t →
      ∃ u r, t = u.deliver r ∧ ((encodedLength f v = 0 ∧ u = s) ∨
        ∃ bytes, bytes.length = encodedLength f v ∧ writeBytes s b o bytes = some u) := by
    intro f v b o h
    rcases doEncode_cases h with ⟨h0, rfl⟩ | ⟨-, u, hu, rfl⟩
    · exact ⟨s, _, rfl, .inl ⟨h0, rfl⟩⟩
    · exact ⟨u, _, rfl, .inr ⟨_, pack_length .., hu⟩⟩
  have dec : ∀ {f : Format} {b o : Nat}, exec (decOf f b o) s = .next t → ∃ r, t = s.deliver r := by
    intro f b o h
    obtain ⟨v, n, -, rfl⟩ := execDec_cases h
    exact ⟨_, rfl⟩
  have dlen : ∀ {f : Format} {b o : Nat}, doDecodedLength f b o s = .next t → ∃ r, t = s.deliver r := by
    intro f b o h
    obtain ⟨b0, -, rfl⟩ := doDecodedLength_cases h
    exact ⟨_, rfl⟩
  have quiet : (∃ r, t = s.deliver r) → (writeSpan i).count = 0 →
      ∃ u r, t = u.deliver r ∧ (((writeSpan i).count = 0 ∧ u = s) ∨
       ∃ bytes, bytes.length = (writeSpan i).count ∧
        writeBytes s (writeSpan i).buffer (writeSpan i).start bytes = some u) := by
    rintro ⟨r, hr⟩ h0
    exact ⟨s, r, hr, .inl ⟨h0, rfl⟩⟩
  cases i with
  | encA v b o => exact enc h
  | encB v b o => exact enc h
  | dlenA b o => exact quiet (dlen (f := .A) h) rfl
  | dlenB b o => exact quiet (dlen (f := .B) h) rfl
  | decA b o => exact quiet (dec (f := .A) h) rfl
  | decB b o => exact quiet (dec (f := .B) h) rfl
  | elenA v => exact quiet ⟨_, by simpa [exec, execElenA, doEncodedLength] using h.symm⟩ rfl
  | elenB v => exact quiet ⟨_, by simpa [exec, execElenB, doEncodedLength] using h.symm⟩ rfl
  | a1 v => exact quiet ⟨_, by simpa [exec, execA1, consumeA] using h.symm⟩ rfl
  | a2 v => exact quiet ⟨_, by simpa [exec, execA2, consumeA] using h.symm⟩ rfl
  | a3 v => exact quiet ⟨_, by simpa [exec, execA3, consumeA] using h.symm⟩ rfl
  | a4 v => exact quiet ⟨_, by simpa [exec, execA4, consumeA] using h.symm⟩ rfl
  | b1 v => exact quiet ⟨_, by simpa [exec, execB1, consumeB] using h.symm⟩ rfl
  | b2 v => exact quiet ⟨_, by simpa [exec, execB2, consumeB] using h.symm⟩ rfl

/-! ## What a step can do -/

/-- The host's machine steps as `step`. -/
theorem core_step (s : State) : Host.Core.step core s = step s := rfl

/-- Everything a step that goes on can do: nothing, with no move left, or one of the three moves, taken from the host's list. -/
theorem step_cases {s t : State} (h : step s = .next t) :
    (s.moves = [] ∧ t = s) ∨
    (∃ b len rest, s.moves = .provide b len :: rest ∧ t = State.provide { s with moves := rest } b len) ∨
    (∃ b i v rest, s.moves = .write b i v :: rest ∧ memWrite { s with moves := rest } b i v = some t) ∨
    (∃ c rest i, s.moves = .issue c :: rest ∧ decode (.command c) = .ok i ∧ exec i { s with moves := rest } = .next t) := by
  unfold step at h
  split at h
  · exact .inl ⟨‹_›, by simpa using h.symm⟩
  · exact .inr (.inl ⟨_, _, _, ‹_›, by simpa [hostProvide] using h.symm⟩)
  · refine .inr (.inr (.inl ⟨_, _, _, _, ‹_›, ?_⟩))
    unfold hostWrite at h
    split at h <;> simp_all
  · rename_i c rest hm
    unfold issueCommand at h
    split at h
    · exact .inr (.inr (.inr ⟨c, rest, _, hm, ‹_›, h⟩))
    · simp at h

end Sys2Proof.Machine
end

