-- ==== Sys2Proof/Laws/PerInstr.lean ====
section
/-! SUPPORT. The families of statements made instruction by instruction. -/

/-! ## WellFormed: the operand types meet the ranges the spec gives the operands -/

def Sys2Proof.Laws.WellFormed.Statement (i : Sys2Proof.Instr) : Prop := i.wellFormed = true

namespace Sys2Proof.Laws.WellFormed

theorem elenA (value : ValueA) : Statement (.elenA value) := decide_eq_true value.isLt
theorem encA (value : ValueA) (buffer offset : Nat) : Statement (.encA value buffer offset) := decide_eq_true value.isLt
theorem dlenA (buffer offset : Nat) : Statement (.dlenA buffer offset) := rfl
theorem decA (buffer offset : Nat) : Statement (.decA buffer offset) := rfl
theorem elenB (value : ValueB) : Statement (.elenB value) := decide_eq_true value.isLt
theorem encB (value : ValueB) (buffer offset : Nat) : Statement (.encB value buffer offset) := decide_eq_true value.isLt
theorem dlenB (buffer offset : Nat) : Statement (.dlenB buffer offset) := rfl
theorem decB (buffer offset : Nat) : Statement (.decB buffer offset) := rfl
theorem a1 (payload : BitVec 6) : Statement (.a1 payload) := decide_eq_true (Nat.le_pred_of_lt payload.isLt)
theorem a2 (payload : BitVec 14) : Statement (.a2 payload) := decide_eq_true (Nat.le_pred_of_lt payload.isLt)
theorem a3 (payload : BitVec 22) : Statement (.a3 payload) := decide_eq_true (Nat.le_pred_of_lt payload.isLt)
theorem a4 (payload : BitVec 30) : Statement (.a4 payload) := decide_eq_true (Nat.le_pred_of_lt payload.isLt)
theorem b1 (payload : BitVec 7) : Statement (.b1 payload) := decide_eq_true (Nat.le_pred_of_lt payload.isLt)
theorem b2 (payload : BitVec 15) : Statement (.b2 payload) := decide_eq_true (Nat.le_pred_of_lt payload.isLt)

end Sys2Proof.Laws.WellFormed

/-! ## WordsWellFormed: the encoder writes well-formed words -/

def Sys2Proof.Laws.WordsWellFormed.Statement (i : Sys2Proof.Instr) : Prop := (Sys2Proof.encode i).wellFormed = true

namespace Sys2Proof.Laws.WordsWellFormed

/-- The selector that the bit drawings put in the top bits of byte 0 is what the arithmetic of R75 reads back. -/
theorem selectorA (k : BitVec 2) (x : BitVec 6) : (k ++ x : Byte).toNat / 2 ^ (8 - Format.A.headerBits) = k.toNat := by
  have e : (k ++ x : Byte).toNat = k.toNat * 64 + x.toNat := Machine.toNat_append_eq k x
  have := x.isLt
  rw [e]
  simp only [Format.headerBits_A]
  omega

theorem selectorB (k : BitVec 1) (x : BitVec 7) : (k ++ x : Byte).toNat / 2 ^ (8 - Format.B.headerBits) = k.toNat := by
  have e : (k ++ x : Byte).toNat = k.toNat * 128 + x.toNat := Machine.toNat_append_eq k x
  have := x.isLt
  rw [e]
  simp only [Format.headerBits_B]
  omega

theorem elenA (value : ValueA) : Statement (.elenA value) := rfl
theorem encA (value : ValueA) (buffer offset : Nat) : Statement (.encA value buffer offset) := rfl
theorem dlenA (buffer offset : Nat) : Statement (.dlenA buffer offset) := rfl
theorem decA (buffer offset : Nat) : Statement (.decA buffer offset) := rfl
theorem elenB (value : ValueB) : Statement (.elenB value) := by
  have := value.isLt
  simp [Statement, encode, Words.wellFormed, Command.wellFormed, Format.containerWidth]; omega
theorem encB (value : ValueB) (buffer offset : Nat) : Statement (.encB value buffer offset) := by
  have := value.isLt
  simp [Statement, encode, Words.wellFormed, Command.wellFormed, Format.containerWidth]; omega
theorem dlenB (buffer offset : Nat) : Statement (.dlenB buffer offset) := rfl
theorem decB (buffer offset : Nat) : Statement (.decB buffer offset) := rfl
theorem a1 (payload : BitVec 6) : Statement (.a1 payload) := by
  simp only [Statement, encode, Words.wellFormed, wellFormedEncoding, selectorA]; rfl
theorem a2 (payload : BitVec 14) : Statement (.a2 payload) := by
  simp only [Statement, encode, Words.wellFormed, wellFormedEncoding, selectorA]; rfl
theorem a3 (payload : BitVec 22) : Statement (.a3 payload) := by
  simp only [Statement, encode, Words.wellFormed, wellFormedEncoding, selectorA]; rfl
theorem a4 (payload : BitVec 30) : Statement (.a4 payload) := by
  simp only [Statement, encode, Words.wellFormed, wellFormedEncoding, selectorA]; rfl
theorem b1 (payload : BitVec 7) : Statement (.b1 payload) := by
  simp only [Statement, encode, Words.wellFormed, wellFormedEncoding, selectorB]; rfl
theorem b2 (payload : BitVec 15) : Statement (.b2 payload) := by
  simp only [Statement, encode, Words.wellFormed, wellFormedEncoding, selectorB]; rfl

end Sys2Proof.Laws.WordsWellFormed
end

