-- ==== Sys2Proof/Tests/Slice0.lean ====
section
/-! SUPPORT. The model's own tests. Expected results come from 95_test_vectors.md (section and row in the comments), from the
examples inside the instruction rules, or from the bit drawings of 30_encoding.md; none is the model's own answer. -/

namespace Sys2Proof.Tests

open Sys2Proof.Machine

/-- A state with one buffer, named 0, that holds these bytes. -/
def buffered (bytes : List Byte) : State where
  buffers := [(0, ⟨bytes.length, 0, (List.range bytes.length).zip bytes⟩)]
  provided := 1
  moves := []
  results := []

/-- The results and the bytes of buffer 0 after an outcome. -/
def shown (o : Host.Outcome State Fault Refusal) : Option (List Result × Option (List Byte)) :=
  match o with
  | .next s => some (s.results, readBytes s 0 0 (s.bufLen 0))
  | _ => none

def refusedOutOfBounds (o : Host.Outcome State Fault Refusal) : Bool :=
  match o with
  | .refused .outOfBounds => true
  | _ => false

/-! ## WellFormed: a term each check refuses, and one it lets pass -/

theorem test_command_value_too_wide_elenB : Command.wellFormed ⟨0b100#3, 0x10000#32, 0, 0⟩ = false := by decide
theorem test_command_value_too_wide_encB : Command.wellFormed ⟨0b101#3, 0xFFFFFFFF#32, 0, 0⟩ = false := by decide
theorem test_command_unused_value_may_be_wide : Command.wellFormed ⟨0b110#3, 0xFFFFFFFF#32, 0, 0⟩ = true := by decide
theorem test_encoding_without_bytes : wellFormedEncoding .A [] = false := by decide
theorem test_encoding_too_short_A : wellFormedEncoding .A [0x81#8, 0x86#8] = false := by decide
theorem test_encoding_too_long_A : wellFormedEncoding .A [0x3F#8, 0x00#8] = false := by decide
theorem test_encoding_too_short_B : wellFormedEncoding .B [0x80#8] = false := by decide
theorem test_encoding_whole_A : wellFormedEncoding .A [0x81#8, 0x86#8, 0xA0#8] = true := by decide
/-- R75: the same words refused by the decoder, each by its name. -/
theorem test_rejects_by_name :
    decode (.command ⟨0b100#3, 0x10000#32, 0, 0⟩) = .error .valueTooWide ∧
    decode (.command ⟨0b101#3, 0x10000#32, 0, 0⟩) = .error .valueTooWide ∧
    decode (.encoding .A []) = .error .truncated ∧
    decode (.encoding .A [0xC0#8, 0#8, 0#8]) = .error .truncated ∧
    decode (.encoding .B [0x80#8]) = .error .truncated ∧
    decode (.encoding .B [0x7F#8, 0x00#8]) = .error .trailingBytes := by decide

/-! ## Decoding, by words written out from the spec: R84 for the commands, R72 and R73 for the wire forms -/

theorem test_decode_commands_A :
    decode (.command ⟨0b000#3, 0xFFFFFFFF#32, 7, 9⟩) = .ok (.elenA 0xFFFFFFFF#32) ∧
    decode (.command ⟨0b001#3, 100000#32, 2, 3⟩) = .ok (.encA 100000#32 2 3) ∧
    decode (.command ⟨0b010#3, 1#32, 2, 5⟩) = .ok (.dlenA 2 5) ∧
    decode (.command ⟨0b011#3, 1#32, 2, 3⟩) = .ok (.decA 2 3) := by decide
theorem test_decode_commands_B :
    decode (.command ⟨0b100#3, 0xFFFF#32, 7, 9⟩) = .ok (.elenB 0xFFFF#16) ∧
    decode (.command ⟨0b101#3, 1000#32, 2, 3⟩) = .ok (.encB 1000#16 2 3) ∧
    decode (.command ⟨0b110#3, 0xFFFFFFFF#32, 2, 5⟩) = .ok (.dlenB 2 5) ∧
    decode (.command ⟨0b111#3, 0xFFFFFFFF#32, 2, 3⟩) = .ok (.decB 2 3) := by decide
/-- 95 section 2.6: `2A`, `52 34`, `92 34 56`, `D2 34 56 78` in Format A. -/
theorem test_decode_forms_A :
    decode (.encoding .A [0b00101010#8]) = .ok (.a1 42#6) ∧
    decode (.encoding .A [0b01010010#8, 0x34#8]) = .ok (.a2 0x1234#14) ∧
    decode (.encoding .A [0b10010010#8, 0x34#8, 0x56#8]) = .ok (.a3 0x123456#22) ∧
    decode (.encoding .A [0b11010010#8, 0x34#8, 0x56#8, 0x78#8]) = .ok (.a4 0x12345678#30) := by decide
/-- 95 section 2.6: `43` and `E8 10` in Format B. -/
theorem test_decode_forms_B :
    decode (.encoding .B [0b01000011#8]) = .ok (.b1 67#7) ∧
    decode (.encoding .B [0b11101000#8, 0x10#8]) = .ok (.b2 26640#15) := by decide
/-- The opcode table's words, free bits zero or one. A word that stands in two of the table's spaces is read as log entry 8 says. -/
theorem test_table_words :
    [0, 1, 2, 3, 4, 5, 6, 7].map (decodeTableWord 8) =
      [some (.elenA 0), some (.encA 0 0 0), some (.dlenA 0 0), some (.decA 0 0),
       some (.elenB 0), some (.encB 0 0 0), some (.dlenB 0 0), some (.decB 0 0)] ∧
    decodeTableWord 8 0x3F = some (.a1 63) ∧ decodeTableWord 8 0x7F = some (.b1 127) ∧
    decodeTableWord 16 0x0040 = some (.a2 0) ∧ decodeTableWord 16 0x0080 = some (.b2 0) ∧
    decodeTableWord 24 0x000080 = some (.a3 0) ∧ decodeTableWord 32 0xFFFFFFFF = some (.a4 0x3FFFFFFF) ∧
    decodeTableWord 8 0x80 = none := by decide

/-! ## One step from reset, with the table word where the next instruction is taken from (log entry 9) -/

theorem test_first_steps_after_reset :
    [0, 1, 2, 3, 4, 5, 6, 7].map (fun w => (shown (step (State.reset.withFetchWord 8 w))).map Prod.fst) =
      [some [.len 1], some [.len 1], some [.len 1], some [.decodedA ⟨0, 1⟩],
       some [.len 1], some [.len 1], some [.len 1], some [.decodedB ⟨0, 1⟩]] := by decide
/-- R172, R173: `BF FF FF`, `FF FF FF FF` in Format A, `FF FF` in Format B (95 section 2.6). -/
theorem test_first_wire_forms_after_reset :
    (shown (step (State.reset.withFetchWord 24 0xFFFFBF))).map Prod.fst = some [.decodedA ⟨4194303, 3⟩] ∧
    (shown (step (State.reset.withFetchWord 32 0xFFFFFFFF))).map Prod.fst = some [.decodedA ⟨1073741823, 4⟩] ∧
    (shown (step (State.reset.withFetchWord 16 0xFFFF))).map Prod.fst = some [.decodedB ⟨32767, 2⟩] := by decide

/-! ## One instruction each: 95 sections 2.1 to 2.7 -/

/-- 2.1: the ends of every range, and bit 30 with low bits small. -/
theorem test_elenA :
    [0, 63, 64, 16383, 16384, 4194303, 4194304, 1073741823, 1073741824, 1073741825, 0xFFFFFFFF].map (encodedLength .A) =
      [1, 1, 2, 2, 3, 3, 4, 4, 0, 0, 0] := by decide
/-- 2.2. -/
theorem test_elenB :
    [0, 127, 128, 32767, 32768, 32769, 65535].map (encodedLength .B) = [1, 1, 2, 2, 0, 0, 0] := by decide
/-- 2.7, row 4: `ENC.A 1000, [buf+2]` on `C0 81 7F 05`. -/
theorem test_encA_writes :
    shown (exec (.encA 1000 0 2) (buffered [0xC0, 0x81, 0x7F, 0x05])) =
      some ([.len 2], some [0xC0, 0x81, 0x43, 0xE8]) := by decide
/-- 2.7, rows 3 and 5: out of bounds, and overflow with an offset outside the buffer. -/
theorem test_encA_bounds_and_overflow :
    refusedOutOfBounds (exec (.encA 1000 0 3) (buffered [0xC0, 0x81, 0x7F, 0x05])) = true ∧
    shown (exec (.encA 1073741824 0 100) (buffered [0xC0, 0x81, 0x7F, 0x05])) =
      some ([.len 0], some [0xC0, 0x81, 0x7F, 0x05]) := by decide
/-- 2.3: a value of each form. -/
theorem test_pack_A :
    pack .A 1 42 = [0x2A] ∧ pack .A 2 4660 = [0x52, 0x34] ∧ pack .A 3 1193046 = [0x92, 0x34, 0x56] ∧
    pack .A 4 305419896 = [0xD2, 0x34, 0x56, 0x78] := by decide
/-- Program P2, steps 2 and 3. -/
theorem test_encB :
    shown (exec (.encB 128 0 1) (buffered [0x7F, 0x55, 0x55, 0x55])) = some ([.len 2], some [0x7F, 0x80, 0x80, 0x55]) ∧
    shown (exec (.encB 40000 0 1) (buffered [0x7F, 0x55, 0x55, 0x55])) = some ([.len 0], some [0x7F, 0x55, 0x55, 0x55]) := by decide
/-- 2.7: `DLEN.A [buf+0]` where the continuation bytes do not exist, and `DLEN.A [buf+4]` out of bounds. -/
theorem test_dlenA :
    (shown (exec (.dlenA 0 0) (buffered [0xC0, 0x00]))).map Prod.fst = some [.len 4] ∧
    refusedOutOfBounds (exec (.dlenA 0 4) (buffered [0xC0, 0x81, 0x7F, 0x05])) = true := by decide
/-- 2.5: `81` is length 3 in Format A and 2 in Format B. -/
theorem test_dlenB : (shown (exec (.dlenB 0 0) (buffered [0x81]))).map Prod.fst = some [.len 2] := by decide
/-- 2.7: `DEC.A [buf+1]` on `C0 81 7F 05`, and `DEC.A [buf+0]` on `C0 00`. -/
theorem test_decA :
    (shown (exec (.decA 0 1) (buffered [0xC0, 0x81, 0x7F, 0x05]))).map Prod.fst = some [.decodedA ⟨98053, 3⟩] ∧
    refusedOutOfBounds (exec (.decA 0 0) (buffered [0xC0, 0x00])) = true := by decide
/-- 2.6: `D2 34 56 78`, and `C0 00 00 2A`, not the shortest form of 42. -/
theorem test_decA_four_bytes :
    (shown (exec (.decA 0 0) (buffered [0xD2, 0x34, 0x56, 0x78]))).map Prod.fst = some [.decodedA ⟨305419896, 4⟩] ∧
    (shown (exec (.decA 0 0) (buffered [0xC0, 0x00, 0x00, 0x2A]))).map Prod.fst = some [.decodedA ⟨42, 4⟩] := by decide
/-- 2.7: `DEC.B [buf+1]` on `C0 81 7F 05`. -/
theorem test_decB :
    (shown (exec (.decB 0 1) (buffered [0xC0, 0x81, 0x7F, 0x05]))).map Prod.fst = some [.decodedB ⟨383, 2⟩] := by decide
/-- 2.6: the payload of each form is the value. -/
theorem test_wire_forms :
    (shown (exec (.a1 63) State.reset)).map Prod.fst = some [.decodedA ⟨63, 1⟩] ∧
    (shown (exec (.a2 5) State.reset)).map Prod.fst = some [.decodedA ⟨5, 2⟩] ∧
    (shown (exec (.a3 100000) State.reset)).map Prod.fst = some [.decodedA ⟨100000, 3⟩] ∧
    (shown (exec (.a4 0x3FFFFFFF) State.reset)).map Prod.fst = some [.decodedA ⟨1073741823, 4⟩] ∧
    (shown (exec (.b1 127) State.reset)).map Prod.fst = some [.decodedB ⟨127, 1⟩] ∧
    (shown (exec (.b2 26640) State.reset)).map Prod.fst = some [.decodedB ⟨26640, 2⟩] := by decide
/-- A buffer handed over and one byte written: the byte written reads back, one past the end does not (R45, R46). -/
theorem test_host_moves :
    (match Host.Core.run core 2 { State.reset with moves := [.provide 3 2, .write 3 1 0xAB] } with
      | .next t => (memRead t 3 1, memRead t 3 2, t.moves) == (some 0xAB, none, [])
      | _ => false) = true := by decide

/-! ## Witnesses: states and operands that meet the hypotheses of each statement together -/

/-- Two encodings, `05` and `81 86 A0`, and a byte after them. -/
def sample : State := buffered [0x05, 0x81, 0x86, 0xA0, 0x7F]

theorem witness_EncodeOfAWholeEncodingIsItsBytes :
    decode (.encoding .A [0x81, 0x86, 0xA0]) = .ok (.a3 100000) ∧ decode (.encoding .B [0x7F]) = .ok (.b1 127) := by decide
theorem witness_EveryFirstByteBeginsAForm :
    slice (0xC0 : Byte).toNat 7 (8 - Format.A.headerBits) ≤ [0#8, 0#8, 0#8].length ∧
    [0#8, 0#8].length < slice (0xC0 : Byte).toNat 7 (8 - Format.A.headerBits) := by decide
theorem witness_StepRunsTheIssuedCommand :
    ({ sample with moves := [.issue ⟨0b011#3, 0, 0, 1⟩] } : State).moves = .issue ⟨0b011#3, 0, 0, 1⟩ :: [] ∧
    decode (.command ⟨0b011#3, 0, 0, 1⟩) = .ok (.decA 0 1) := by decide
theorem witness_StepRunsTheWireFormInTheBuffer :
    ({ sample with moves := [.issue (decCommand .A 0 1)] } : State).moves = .issue (decCommand .A 0 1) :: [] ∧
    readBytes { sample with moves := [.issue (decCommand .A 0 1)] } 0 1 3 = some [0x81, 0x86, 0xA0] ∧
    decode (.encoding .A [0x81, 0x86, 0xA0]) = .ok (.a3 100000) := by decide
theorem witness_HostMovesBetweenCommands :
    State.reset.moves = [] ∧
    ({ sample with moves := [.provide 1 4] } : State).moves = .provide 1 4 :: [] ∧
    ({ sample with moves := [.write 0 4 0xFF] } : State).moves = .write 0 4 0xFF :: [] ∧
    4 < ({ sample with moves := [.write 0 4 0xFF] } : State).bufLen 0 ∧
    ({ sample with moves := [.write 0 5 0xFF] } : State).moves = .write 0 5 0xFF :: [] ∧
    ({ sample with moves := [.write 0 5 0xFF] } : State).bufLen 0 ≤ 5 := by decide
theorem witness_WideFormatBValueIsNotPresentable :
    ({ sample with moves := [.issue ⟨0b101#3, 0x10000, 0, 0⟩] } : State).moves = .issue ⟨0b101#3, 0x10000, 0, 0⟩ :: [] ∧
    2 ^ 16 ≤ (0x10000 : BitVec 32).toNat := by decide
theorem witness_StepTakesOneMove :
    ∃ t, step { sample with moves := [.issue ⟨0b011#3, 0, 0, 1⟩, .provide 1 1] } = .next t := ⟨_, rfl⟩
theorem witness_EncodedLengthIsTheLeastLength :
    Format.A.absoluteMax < 1073741824 ∧ 1073741823 ≤ Format.A.absoluteMax ∧ 1 ≤ 4 ∧ 4 ≤ Format.A.maxBytes ∧
    1073741823 ≤ Format.A.maxValueForLength 4 ∧ Format.B.absoluteMax < 32768 ∧ 32767 ≤ Format.B.absoluteMax := by decide
theorem witness_EncAWritesThePackedBytes :
    encodedLength .A (1073741824 : ValueA).toNat = 0 ∧
    encodedLength .A (4194304 : ValueA).toNat ≠ 0 ∧ 1 + encodedLength .A (4194304 : ValueA).toNat ≤ sample.bufLen 0 := by decide
theorem witness_EncBWritesThePackedBytes :
    encodedLength .B (32768 : ValueB).toNat = 0 ∧
    encodedLength .B (32767 : ValueB).toNat ≠ 0 ∧ 3 + encodedLength .B (32767 : ValueB).toNat ≤ sample.bufLen 0 := by decide
theorem witness_OverflowIsSignalledByZero :
    1073741824 < 2 ^ Format.A.containerWidth ∧ Format.A.absoluteMax < 1073741824 ∧
    65535 < 2 ^ Format.B.containerWidth ∧ Format.B.absoluteMax < 65535 := by decide
theorem witness_PackIsTheEncodingNumber :
    1 ≤ 4 ∧ 4 ≤ Format.A.maxBytes ∧ 1073741823 ≤ Format.A.maxValueForLength 4 ∧
    1 ≤ 1 ∧ 1 ≤ Format.B.maxBytes ∧ 127 ≤ Format.B.maxValueForLength 1 ∧
    ((4 - 1) <<< (8 * 4 - Format.A.headerBits)) ||| 1073741823 = 0xFFFFFFFF := by decide
theorem witness_DlenAReturnsTheLength :
    memRead sample 0 1 = some 0x81 ∧ memRead (buffered [0x3F, 0x40, 0xC0]) 0 0 = some 0x3F ∧
    memRead (buffered [0x3F, 0x40, 0xC0]) 0 1 = some 0x40 ∧ memRead (buffered [0x3F, 0x40, 0xC0]) 0 2 = some 0xC0 := by decide
theorem witness_DlenBReturnsTheLength : memRead sample 0 1 = some 0x81 ∧ memRead sample 0 4 = some 0x7F := by decide
theorem witness_DecAReturnsValueAndLength :
    (memRead sample 0 0 = some 0x05 ∧ slice (0x05 : Byte).toNat 7 6 + 1 = 1) ∧
    (memRead (buffered [0x7F, 0xFF]) 0 0 = some 0x7F ∧ slice (0x7F : Byte).toNat 7 6 + 1 = 2 ∧
      memRead (buffered [0x7F, 0xFF]) 0 (0 + 1) = some 0xFF) ∧
    (memRead sample 0 1 = some 0x81 ∧ slice (0x81 : Byte).toNat 7 6 + 1 = 3 ∧
      memRead sample 0 (1 + 1) = some 0x86 ∧ memRead sample 0 (1 + 2) = some 0xA0) ∧
    (memRead (buffered [0xFF, 0xFF, 0xFF, 0xFF]) 0 0 = some 0xFF ∧ slice (0xFF : Byte).toNat 7 6 + 1 = 4 ∧
      memRead (buffered [0xFF, 0xFF, 0xFF, 0xFF]) 0 (0 + 1) = some 0xFF ∧
      memRead (buffered [0xFF, 0xFF, 0xFF, 0xFF]) 0 (0 + 2) = some 0xFF ∧
      memRead (buffered [0xFF, 0xFF, 0xFF, 0xFF]) 0 (0 + 3) = some 0xFF) := by decide
theorem witness_DecBReturnsValueAndLength :
    (memRead sample 0 4 = some 0x7F ∧ slice (0x7F : Byte).toNat 7 7 + 1 = 1) ∧
    (memRead sample 0 1 = some 0x81 ∧ slice (0x81 : Byte).toNat 7 7 + 1 = 2 ∧ memRead sample 0 (1 + 1) = some 0x86) := by decide
theorem witness_DecIsTheWireFormItReads :
    readBytes sample 0 1 3 = some [0x81, 0x86, 0xA0] ∧ decode (.encoding .A [0x81, 0x86, 0xA0]) = .ok (.a3 100000) ∧
    readBytes sample 0 1 2 = some [0x81, 0x86] ∧ decode (.encoding .B [0x81, 0x86]) = .ok (.b2 0x186) := by decide
theorem witness_DecodedValuesStayInRange :
    (∃ t, exec (decOf .A 0 1) sample = .next t) ∧ (∃ t, exec (decOf .B 0 1) sample = .next t) := ⟨⟨_, rfl⟩, ⟨_, rfl⟩⟩
theorem witness_RoundTripThroughTheBuffer :
    100000 ≤ Format.A.absoluteMax ∧ 2 + encodedLength .A 100000 ≤ sample.bufLen 0 ∧
    32767 ≤ Format.B.absoluteMax ∧ 3 + encodedLength .B 32767 ≤ sample.bufLen 0 := by decide
/-- The second premise of the round trip: the state right after the ENC is such a later state. -/
theorem witness_RoundTripThroughTheBuffer_later :
    ∃ t, exec (encOf .A 100000 0 2) sample = .next t ∧
      ∀ i, i < encodedLength .A 100000 → memRead t 0 (2 + i) = memRead t 0 (2 + i) := ⟨_, rfl, fun _ _ => rfl⟩
theorem witness_LengthIsSelfDescribing :
    (∃ t, exec (decOf .A 0 0) (buffered [0xC0, 0x00, 0x00, 0x2A]) = .next t) ∧
    1 ≤ 2 ∧ 2 ≤ Format.B.maxBytes ∧ 5 ≤ Format.B.maxValueForLength 2 := ⟨⟨_, rfl⟩, by decide⟩
theorem witness_OperationsAreOffsetIndependent :
    (300 < 2 ^ Format.A.containerWidth ∧
      ∃ t t', exec (encOf .A 300 0 1) sample = .next t ∧ exec (encOf .A 300 0 0) (buffered [1, 2]) = .next t') ∧
    ((∃ t, exec (dlenOf .A 0 1) sample = .next t) ∧ memRead (buffered [0x81]) 0 0 = memRead sample 0 1) ∧
    ((∃ t, exec (decOf .A 0 1) sample = .next t) ∧
      ∀ i, i < (readSpan sample (decOf .A 0 1)).count →
        memRead (buffered [0x81, 0x86, 0xA0]) 0 (0 + i) = memRead sample 0 (1 + i)) :=
  ⟨⟨by decide, _, _, rfl, rfl⟩, ⟨⟨_, rfl⟩, by decide⟩, ⟨⟨_, rfl⟩, by decide⟩⟩
/-- Another state with the footprint's bytes: one that differs in the results, and by a second buffer. -/
theorem witness_OutcomeDependsOnTheFootprintOnly :
    (∃ t, exec (.decA 0 1) sample = .next t) ∧
    precondition { sample with results := [.len 4], buffers := sample.buffers ++ [(1, ⟨9, 5, []⟩)] } (.decA 0 1) = true ∧
    ∀ b a, (readSpan sample (.decA 0 1)).has b a = true →
      memRead { sample with results := [.len 4], buffers := sample.buffers ++ [(1, ⟨9, 5, []⟩)] } b a = memRead sample b a := by
  refine ⟨⟨_, rfl⟩, by decide, fun b a h => ?_⟩
  have hb : b = 0 := by
    simp only [Span.has, Bool.and_eq_true, beq_iff_eq] at h
    exact h.1
  subst hb
  rfl
/-- The document's own example (R205): 42, 1000, 100000, 10000000 in Format A. -/
theorem witness_SequentialPackingComesBackInOrder :
    (∀ v ∈ [42, 1000, 100000, 10000000], v ≤ Format.A.absoluteMax) ∧
    0 + totalLength .A [42, 1000, 100000, 10000000] ≤ (buffered (List.replicate 12 0xEE)).bufLen 0 ∧
    totalLength .A [42, 1000, 100000, 10000000] = 10 ∧
    ({ buffered (List.replicate 12 0xEE) with
      moves := packingMoves .A 0 0 [42, 1000, 100000, 10000000] ++ unpackingMoves .A 0 0 [42, 1000, 100000, 10000000] } :
        State).moves =
      packingMoves .A 0 0 [42, 1000, 100000, 10000000] ++ unpackingMoves .A 0 0 [42, 1000, 100000, 10000000] := by
  refine ⟨by decide, by decide, by decide, rfl⟩
theorem witness_ReencodingGivesTheSameBytesIffCanonical :
    (∃ t, exec (decOf .A 0 0) (buffered [0x40, 0x05]) = .next t) ∧ (∃ t, exec (decOf .A 0 0) sample = .next t) :=
  ⟨⟨_, rfl⟩, ⟨_, rfl⟩⟩
theorem witness_EncodingsArePrefixFreeAndOrdered :
    decode (.encoding .A [0x05]) = .ok (.a1 5) ∧ decode (.encoding .A ([0x05] ++ [])) = .ok (.a1 5) ∧
    63 < 64 ∧ 64 ≤ Format.A.absoluteMax ∧ canonical .A 63 = [0x3F] ∧ canonical .A 64 = [0x40, 0x40] := by decide
theorem witness_MemWriteSetsOneByte : 4 < sample.bufLen 0 ∧ sample.bufLen 0 ≤ 5 ∧ sample.bufLen 7 ≤ 0 := by decide
theorem witness_EveryOperationCompletesWithinBounds :
    (1073741823 : ValueA).toNat ≤ Format.A.absoluteMax ∧ 1 + encodedLength .A (1073741823 : ValueA).toNat ≤ sample.bufLen 0 ∧
    (32767 : ValueB).toNat ≤ Format.B.absoluteMax ∧ 1 + encodedLength .B (32767 : ValueB).toNat ≤ sample.bufLen 0 ∧
    Format.A.absoluteMax < (1073741824 : ValueA).toNat ∧ Format.B.absoluteMax < (32768 : ValueB).toNat ∧
    1 < sample.bufLen 0 ∧ memRead sample 0 1 = some 0x81 ∧
    1 + (extract .A 0x81).len ≤ sample.bufLen 0 ∧ 1 + (extract .B 0x81).len ≤ sample.bufLen 0 := by decide
theorem witness_RefusedExactlyOutOfBounds :
    precondition sample (.encA 1000 0 4) = false ∧ precondition sample (.encA 1000 0 3) = true ∧
    precondition sample (.dlenB 0 5) = false ∧ precondition sample (.decA 1 0) = false := by decide
theorem witness_OnlyTheWrittenBytesChange :
    (∃ t, exec (.encA 1000 0 1) sample = .next t) ∧ (writeSpan (.encA 1000 0 1)).has 0 3 = false ∧
    (writeSpan (.encA 1000 0 1)).has 0 2 = true ∧
    (∃ t, exec (.decA 0 1) sample = .next t) ∧ (writeSpan (.decA 0 1)).count = 0 :=
  ⟨⟨_, rfl⟩, by decide, by decide, ⟨_, rfl⟩, rfl⟩
theorem witness_EachOperationDeliversOneResult : ∃ t, exec (.encB 300 0 0) sample = .next t := ⟨_, rfl⟩
/-- `ENC.A 1000` at indices 0 and 1, and `DEC.A` of the one-byte form at index 4. -/
theorem witness_DisjointOperationsCommute :
    ∃ t u, exec (.encA 1000 0 0) (buffered [1, 2, 3, 4, 5]) = .next t ∧ exec (.decA 0 4) t = .next u ∧
      (∀ b a, (writeSpan (.encA 1000 0 0)).has b a = true →
        (writeSpan (.decA 0 4)).has b a = false ∧ (readSpan (buffered [1, 2, 3, 4, 5]) (.decA 0 4)).has b a = false) ∧
      (∀ b a, (writeSpan (.decA 0 4)).has b a = true →
        (readSpan (buffered [1, 2, 3, 4, 5]) (.encA 1000 0 0)).has b a = false) := by
  refine ⟨_, _, rfl, rfl, fun b a h => ?_, fun b a h => ?_⟩
  · have w : writeSpan (.encA 1000 0 0) = ⟨0, 0, 2⟩ := by decide
    have r : readSpan (buffered [1, 2, 3, 4, 5]) (.decA 0 4) = ⟨0, 4, 1⟩ := by decide
    rw [w] at h
    rw [r]
    simp [Span.has, writeSpan, Span.empty] at h ⊢
    omega
  · simp [Span.has, writeSpan, Span.empty] at h
theorem witness_StepKeepsTheInvariant :
    State.Inv { sample with moves := [.issue ⟨0b001#3, 1000, 0, 0⟩] } ∧
      ∃ t, step { sample with moves := [.issue ⟨0b001#3, 1000, 0, 0⟩] } = .next t := by
  refine ⟨⟨by decide, ?_, by decide, by simp [sample, buffered]⟩, ⟨_, rfl⟩⟩
  simp only [sample, buffered, List.mem_singleton, forall_eq]
  exact ⟨by decide, by decide, by decide⟩

end Sys2Proof.Tests
end

section
/-! PROOFS. The scope: what the host's command has the codec do (00_scope.md R10). -/

namespace Sys2Proof.Machine

/-- An issued command is taken from the host's list before it is presented (R274). -/
theorem step_of_issue {s : State} {c : Command} {rest : List HostMove} (h : s.moves = .issue c :: rest) :
    step s = issueCommand c { s with moves := rest } := by
  rw [step, h]

/-- A command that presents an instruction is that instruction, with nothing done before or after it. -/
theorem issueCommand_of_decode_ok {c : Command} {i : Instr} (h : decode (.command c) = .ok i) (s : State) :
    issueCommand c s = exec i s := by
  rw [issueCommand, h]

/-- Settles O6: the step presents the command it takes, and the command runs the instruction it presents. -/
theorem stepRunsTheIssuedCommand : Obligations.StepRunsTheIssuedCommand := by
  intro s c rest i hmoves hdecode
  calc step s = issueCommand c { s with moves := rest } := step_of_issue hmoves
    _ = exec i { s with moves := rest } := issueCommand_of_decode_ok hdecode _

end Sys2Proof.Machine
end

section
/-! PROOFS. The state: what an operation that completes leaves of it (10_state.md R26, R28; 20_memory.md R41). -/

namespace Sys2Proof.Machine

/-- Settles O41: the bytes an operation writes, if any, leave every field but the buffers' bytes as it was, and the one result is
delivered after them. -/
theorem eachOperationDeliversOneResult : Obligations.EachOperationDeliversOneResult := by
  intro i s t h
  obtain ⟨u, r, rfl, hu⟩ := exec_cases h
  obtain ⟨hmoves, hresults, hprovided, hlen⟩ : u.moves = s.moves ∧ u.results = s.results ∧ u.provided = s.provided ∧
      ∀ b, u.bufLen b = s.bufLen b := by
    rcases hu with ⟨-, rfl⟩ | ⟨bytes, -, hwrite⟩
    · exact ⟨rfl, rfl, rfl, fun _ => rfl⟩
    · exact writeBytes_fields hwrite
  exact ⟨⟨r, by simp [hresults]⟩, hmoves, hprovided, hlen⟩

end Sys2Proof.Machine
end

section
/-! PROOFS. Memory, footprints and bounds (20_memory.md R40 to R58; 43_decode.md R175, R176), and the invariant (10_state.md R25 to
R28).

The development turns on one formula for all fourteen instructions (`effect`): an operation that completes has a result, found from the
bytes it reads, and a list of bytes, fixed by its operands, that it writes. `exec_eq_effect` ties the formula to `exec`. -/

namespace Sys2Proof.Machine

/-! ## The effect of an instruction -/

/-- The result an instruction delivers, or `none` where a byte it reads is out of bounds. -/
def deliveredResult (s : State) : Instr → Option Result
  | .elenA value => some (.len (encodedLength .A value.toNat))
  | .encA value _ _ => some (.len (encodedLength .A value.toNat))
  | .dlenA buffer offset => (memRead s buffer offset).map fun b0 => .len (extract .A b0).len
  | .decA buffer offset => (decodeAt .A buffer offset s).map fun r => decodedOf .A r.1 r.2
  | .elenB value => some (.len (encodedLength .B value.toNat))
  | .encB value _ _ => some (.len (encodedLength .B value.toNat))
  | .dlenB buffer offset => (memRead s buffer offset).map fun b0 => .len (extract .B b0).len
  | .decB buffer offset => (decodeAt .B buffer offset s).map fun r => decodedOf .B r.1 r.2
  | .a1 payload => some (.decodedA ⟨payload.setWidth 32, 1⟩)
  | .a2 payload => some (.decodedA ⟨payload.setWidth 32, 2⟩)
  | .a3 payload => some (.decodedA ⟨payload.setWidth 32, 3⟩)
  | .a4 payload => some (.decodedA ⟨payload.setWidth 32, 4⟩)
  | .b1 payload => some (.decodedB ⟨payload.setWidth 16, 1⟩)
  | .b2 payload => some (.decodedB ⟨payload.setWidth 16, 2⟩)

/-- The bytes an instruction writes, in order from the start of its `writeSpan`: those of the canonical encoding, empty on overflow,
for `ENC`. -/
def writtenBytes : Instr → List Byte
  | .encA value _ _ => canonical .A value.toNat
  | .encB value _ _ => canonical .B value.toNat
  | _ => []

/-- The state after an instruction's bytes are written. -/
def writeEffect (s : State) (i : Instr) : Option State :=
  writeBytes s (writeSpan i).buffer (writeSpan i).start (writtenBytes i)

/-- The state after an instruction, `none` where a byte of its footprint is out of bounds. -/
def effect (s : State) (i : Instr) : Option State :=
  (deliveredResult s i).bind fun r => (writeEffect s i).map fun u => u.deliver r

theorem length_canonical (f : Format) (v : Nat) : (canonical f v).length = encodedLength f v := pack_length ..

@[simp] theorem length_writtenBytes (i : Instr) : (writtenBytes i).length = (writeSpan i).count := by
  cases i with
  | encA v b o => exact length_canonical .A _
  | encB v b o => exact length_canonical .B _
  | _ => rfl

theorem writeEffect_of_no_write {s : State} {i : Instr} (h : writtenBytes i = []) : writeEffect s i = some s := by
  rw [writeEffect, h, writeBytes]

/-- An instruction that writes no byte delivers its result and does nothing else. -/
theorem effect_of_no_write {s : State} {i : Instr} (h : writtenBytes i = []) :
    effect s i = (deliveredResult s i).map s.deliver := by
  rw [effect, writeEffect_of_no_write h]
  cases deliveredResult s i <;> rfl

/-- ENC ends in its result and its bytes (R122, R125): on overflow the list of bytes is empty, and writing it cannot fail. -/
theorem doEncode_eq_effect (f : Format) (v b o : Nat) (s : State) :
    doEncode f v b o s = ((writeBytes s b o (canonical f v)).map fun u => u.deliver (.len (encodedLength f v))).elim
      (.refused .outOfBounds) .next := by
  unfold doEncode overflowed
  by_cases h0 : encodedLength f v = 0
  · have hc : canonical f v = [] := List.length_eq_zero_iff.1 ((length_canonical f v).trans h0)
    simp [h0, hc, writeBytes]
  · rw [if_neg (by simpa using h0)]
    simp only [canonical]
    cases writeBytes s b o (pack f (encodedLength f v) v) <;> rfl

theorem doDecodedLength_eq_deliver (f : Format) (b o : Nat) (s : State) :
    doDecodedLength f b o s = (((memRead s b o).map fun b0 => .len (extract f b0).len).map s.deliver).elim
      (.refused .outOfBounds) .next := by
  unfold doDecodedLength
  cases memRead s b o <;> rfl

theorem execDec_eq_deliver (f : Format) (b o : Nat) (s : State) :
    exec (decOf f b o) s = (((decodeAt f b o s).map fun r => decodedOf f r.1 r.2).map s.deliver).elim
      (.refused .outOfBounds) .next := by
  cases f <;> simp only [decOf, exec, execDecA, execDecB] <;> cases decodeAt _ b o s <;> rfl

/-- The formula is `exec`: an instruction ends in its effect, and is refused as out of bounds where there is none. -/
theorem exec_eq_effect (i : Instr) (s : State) : exec i s = (effect s i).elim (.refused .outOfBounds) .next := by
  cases i with
  | encA v b o => exact doEncode_eq_effect .A ..
  | encB v b o => exact doEncode_eq_effect .B ..
  | dlenA b o => rw [effect_of_no_write rfl]; exact doDecodedLength_eq_deliver .A b o s
  | dlenB b o => rw [effect_of_no_write rfl]; exact doDecodedLength_eq_deliver .B b o s
  | decA b o => rw [effect_of_no_write rfl]; exact execDec_eq_deliver .A b o s
  | decB b o => rw [effect_of_no_write rfl]; exact execDec_eq_deliver .B b o s
  | _ => rfl

theorem exec_eq_next_iff_effect {i : Instr} {s t : State} : exec i s = .next t ↔ effect s i = some t := by
  rw [exec_eq_effect]
  cases effect s i <;> simp

theorem exec_eq_refused_iff_effect {i : Instr} {s : State} :
    exec i s = .refused .outOfBounds ↔ effect s i = none := by
  rw [exec_eq_effect]
  cases effect s i <;> simp

/-- An instruction completes exactly where it has a result and its bytes can be written, and then does both. -/
theorem exec_eq_next_iff {i : Instr} {s t : State} :
    exec i s = .next t ↔
      ∃ r u, deliveredResult s i = some r ∧ writeEffect s i = some u ∧ t = u.deliver r := by
  simp only [exec_eq_next_iff_effect, effect, Option.bind_eq_some_iff, Option.map_eq_some_iff]
  constructor
  · rintro ⟨r, hr, u, hu, rfl⟩; exact ⟨r, u, hr, hu, rfl⟩
  · rintro ⟨r, u, hr, hu, rfl⟩; exact ⟨r, hr, u, hu, rfl⟩

/-! ## Preconditions -/

theorem encodedLength_eq_zero_iff (f : Format) (v : Nat) : encodedLength f v = 0 ↔ f.absoluteMax < v := by
  cases f
  · rw [encodedLength_A, Format.absoluteMax_A]; split_ifs <;> simp <;> omega
  · rw [encodedLength_B, Format.absoluteMax_B]; split_ifs <;> simp <;> omega

theorem extract_len_pos (f : Format) (b0 : Byte) : 1 ≤ (extract f b0).len := Nat.succ_pos _

/-- The bytes of ENC can be written exactly under ENC's precondition (R48, R125). -/
theorem isSome_writeBytes_canonical (f : Format) (s : State) (v b o : Nat) :
    (writeBytes s b o (canonical f v)).isSome = encPrecondition f s v b o := by
  rw [Bool.eq_iff_iff, writeBytes_isSome_iff, ← List.length_eq_zero_iff, length_canonical, encodedLength_eq_zero_iff,
    encPrecondition]
  split <;> simp <;> omega

/-- DEC's footprint can be read exactly under DEC's precondition (R48, R175). -/
theorem isSome_decodeAt (f : Format) (s : State) (b o : Nat) :
    (decodeAt f b o s).isSome = decPrecondition f s b o := by
  unfold decodeAt decPrecondition
  cases h0 : memRead s b o with
  | none => rfl
  | some b0 =>
    have hin : o < s.bufLen b := (memRead_isSome_iff s b o).1 (by simp [h0])
    have hpos := extract_len_pos f b0
    simp only [Option.bind_some, Option.isSome_map]
    rw [Bool.eq_iff_iff, readBytes_isSome_iff, decide_eq_true_eq]
    omega

theorem isSome_memRead (s : State) (b a : Nat) : (memRead s b a).isSome = decide (a < s.bufLen b) :=
  Bool.eq_iff_iff.2 ((memRead_isSome_iff s b a).trans decide_eq_true_iff.symm)

theorem isSome_effect_of_no_write {s : State} {i : Instr} (h : writtenBytes i = []) :
    (effect s i).isSome = (deliveredResult s i).isSome := by
  rw [effect_of_no_write h, Option.isSome_map]

/-- An instruction has an effect exactly under its precondition (R48). -/
theorem isSome_effect (s : State) (i : Instr) : (effect s i).isSome = precondition s i := by
  cases i with
  | encA v b o => exact Option.isSome_map.trans (isSome_writeBytes_canonical .A s _ b o)
  | encB v b o => exact Option.isSome_map.trans (isSome_writeBytes_canonical .B s _ b o)
  | dlenA b o => exact (isSome_effect_of_no_write rfl).trans (Option.isSome_map.trans (isSome_memRead s b o))
  | dlenB b o => exact (isSome_effect_of_no_write rfl).trans (Option.isSome_map.trans (isSome_memRead s b o))
  | decA b o => exact (isSome_effect_of_no_write rfl).trans (Option.isSome_map.trans (isSome_decodeAt .A s b o))
  | decB b o => exact (isSome_effect_of_no_write rfl).trans (Option.isSome_map.trans (isSome_decodeAt .B s b o))
  | _ => rfl

theorem exec_completes {i : Instr} {s : State} (h : precondition s i = true) : ∃ t, exec i s = .next t := by
  obtain ⟨t, ht⟩ := Option.isSome_iff_exists.1 ((isSome_effect s i).trans h)
  exact ⟨t, exec_eq_next_iff_effect.2 ht⟩

/-! ## Reading after an instruction -/

theorem Span.has_iff {p : Span} {b a : Nat} :
    p.has b a = true ↔ b = p.buffer ∧ p.start ≤ a ∧ a < p.start + p.count := by
  simp [Span.has]

/-- What a byte reads as after an instruction: what the instruction wrote there, or what was there before. -/
theorem memRead_exec {i : Instr} {s t : State} (h : exec i s = .next t) (b a : Nat) :
    memRead t b a =
      if (writeSpan i).has b a = true then (writtenBytes i)[a - (writeSpan i).start]? else memRead s b a := by
  obtain ⟨r, u, -, hu, rfl⟩ := exec_eq_next_iff.1 h
  simp only [memRead_deliver, memRead_writeBytes hu, Span.has_iff, length_writtenBytes]

/-- The frame of an instruction (R51). -/
theorem memRead_exec_of_not_written {i : Instr} {s t : State} (h : exec i s = .next t) {b a : Nat}
    (hw : (writeSpan i).has b a = false) : memRead t b a = memRead s b a := by
  simp [memRead_exec h, hw]

theorem bufLen_exec {i : Instr} {s t : State} (h : exec i s = .next t) (b : Nat) : t.bufLen b = s.bufLen b := by
  obtain ⟨-, -, -, hlen⟩ := eachOperationDeliversOneResult i s t h
  exact hlen b

/-! ## What a result depends on -/

theorem readBytes_congr {s s' : State} {b n a : Nat}
    (h : ∀ i, a ≤ i → i < a + n → memRead s' b i = memRead s b i) : readBytes s' b a n = readBytes s b a n := by
  induction n generalizing a with
  | zero => rfl
  | succ n ih =>
    rw [readBytes, readBytes, h a (Nat.le_refl a) (by omega), ih fun i hle hlt => h i (by omega) (by omega)]

/-- The decoder sees the bytes of its footprint only: the byte at `offset`, and as many more as that one says (R50, R206). -/
theorem decodeAt_congr {f : Format} {s s' : State} {b o : Nat}
    (h : ∀ c a, (decodeSpan f s b o).has c a = true → memRead s' c a = memRead s c a) :
    decodeAt f b o s' = decodeAt f b o s := by
  unfold decodeAt
  cases h0 : memRead s b o with
  | none =>
    have hfirst : memRead s' b o = none := (h b o (by simp [decodeSpan, h0, Span.has])).trans h0
    rw [hfirst]; rfl
  | some b0 =>
    have hspan : decodeSpan f s b o = ⟨b, o, (extract f b0).len⟩ := by simp only [decodeSpan, h0]
    have hpos := extract_len_pos f b0
    have hbytes : ∀ i, o ≤ i → i < o + (extract f b0).len → memRead s' b i = memRead s b i := fun i hle hlt =>
      h b i (by rw [hspan, Span.has_iff]; exact ⟨rfl, hle, hlt⟩)
    rw [(hbytes o (Nat.le_refl o) (by omega)).trans h0, Option.bind_some, Option.bind_some,
      readBytes_congr fun i hle hlt => hbytes i (by omega) (by omega)]

/-- The result of an instruction depends on the bytes it reads only (R206). -/
theorem deliveredResult_congr {i : Instr} {s s' : State}
    (h : ∀ b a, (readSpan s i).has b a = true → memRead s' b a = memRead s b a) :
    deliveredResult s' i = deliveredResult s i := by
  cases i with
  | dlenA b o => rw [deliveredResult, deliveredResult, h b o (by simp [readSpan, Span.has])]
  | dlenB b o => rw [deliveredResult, deliveredResult, h b o (by simp [readSpan, Span.has])]
  | decA b o => rw [deliveredResult, deliveredResult, decodeAt_congr h]
  | decB b o => rw [deliveredResult, deliveredResult, decodeAt_congr h]
  | _ => rfl

/-- Whether an instruction's bytes can be written depends on the lengths of the buffers only (R48). -/
theorem exists_writeEffect_of_bufLen {i : Instr} {s s' u : State} (h : writeEffect s i = some u)
    (hlen : ∀ b, s'.bufLen b = s.bufLen b) : ∃ u', writeEffect s' i = some u' := by
  have hroom := (writeBytes_isSome_iff s _ _ _).1 (Option.isSome_iff_exists.2 ⟨u, h⟩)
  rw [← hlen] at hroom
  exact Option.isSome_iff_exists.1 ((writeBytes_isSome_iff s' _ _ _).2 hroom)

theorem results_writeEffect {i : Instr} {s u : State} (h : writeEffect s i = some u) : u.results = s.results :=
  (writeBytes_fields h).2.1

/-- An instruction that completes in one state completes in any other whose buffers have the same lengths and in which it has the
same result. -/
theorem exec_of_same_result {i : Instr} {s t s' : State} (h : exec i s = .next t)
    (hlen : ∀ b, s'.bufLen b = s.bufLen b) (hresult : deliveredResult s' i = deliveredResult s i) :
    ∃ r t', exec i s' = .next t' ∧ t.results = s.results ++ [r] ∧ t'.results = s'.results ++ [r] := by
  obtain ⟨r, u, hr, hu, rfl⟩ := exec_eq_next_iff.1 h
  obtain ⟨u', hu'⟩ := exists_writeEffect_of_bufLen hu hlen
  exact ⟨r, u'.deliver r, exec_eq_next_iff.2 ⟨r, u', hresult.trans hr, hu', rfl⟩,
    by simp [results_writeEffect hu], by simp [results_writeEffect hu']⟩

/-! ## The ranges of the results -/

theorem encodedLength_le_maxBytes (f : Format) (v : Nat) : encodedLength f v ≤ f.maxBytes := by
  cases f
  · rw [encodedLength_A, Format.maxBytes_A]; split_ifs <;> omega
  · rw [encodedLength_B, Format.maxBytes_B]; split_ifs <;> omega

theorem extract_len_le_maxBytes (f : Format) (b0 : Byte) : (extract f b0).len ≤ f.maxBytes := by
  have := b0.isLt
  cases f
  · rw [extract_A, Format.maxBytes_A]; simp only; omega
  · rw [extract_B, Format.maxBytes_B]; simp only; omega

/-- Appending `n` bytes to a number below `p0 + 1` gives one below `(p0 + 1) * 256 ^ n` (R170). -/
theorem assemble_lt (p0 : Nat) (bytes : List Byte) : assemble p0 bytes < (p0 + 1) * 256 ^ bytes.length := by
  induction bytes generalizing p0 with
  | nil => simp
  | cons c cs ih =>
    have hc := c.isLt
    calc assemble p0 (c :: cs) = assemble (p0 * 256 + c.toNat) cs := assemble_cons ..
      _ < (p0 * 256 + c.toNat + 1) * 256 ^ cs.length := ih _
      _ ≤ ((p0 + 1) * 256) * 256 ^ cs.length := Nat.mul_le_mul_right _ (by omega)
      _ = (p0 + 1) * 256 ^ (c :: cs).length := by rw [List.length_cons, Nat.pow_succ']; ring

/-- A decoded value is at most the format's maximum: the first payload bits and at most `maxBytes - 1` bytes (R176). -/
theorem decodeAt_inRange {f : Format} {b o : Nat} {s : State} {value n : Nat} (h : decodeAt f b o s = some (value, n)) :
    1 ≤ n ∧ n ≤ f.maxBytes ∧ value ≤ f.absoluteMax := by
  obtain ⟨b0, rest, -, hrest, heq⟩ := decodeAt_eq_some_iff.1 h
  obtain ⟨rfl, rfl⟩ := Prod.mk.inj heq
  have hle := extract_len_le_maxBytes f b0
  have hcount : rest.length ≤ f.maxBytes - 1 := by rw [readBytes_length hrest]; omega
  have hvalue : assemble (extract f b0).p0 rest < ((extract f b0).p0 + 1) * 256 ^ (f.maxBytes - 1) :=
    (assemble_lt _ rest).trans_le (Nat.mul_le_mul_left _ (Nat.pow_le_pow_right (by decide) hcount))
  refine ⟨extract_len_pos f b0, hle, ?_⟩
  cases f
  · rw [extract_A] at hvalue ⊢; simp at hvalue ⊢; omega
  · rw [extract_B] at hvalue ⊢; simp at hvalue ⊢; omega

theorem decodedOf_inRange {f : Format} {value n : Nat} (h : 1 ≤ n ∧ n ≤ f.maxBytes ∧ value ≤ f.absoluteMax) :
    (decodedOf f value n).inRange := by
  obtain ⟨hpos, hle, hvalue⟩ := h
  cases f <;> exact ⟨hpos, hle, (Nat.mod_le ..).trans hvalue⟩

theorem encodedLength_inRange (f : Format) (v : Nat) : (Result.len (encodedLength f v)).inRange :=
  (encodedLength_le_maxBytes f v).trans (by cases f <;> decide)

theorem extract_len_inRange (f : Format) (b0 : Byte) : (Result.len (extract f b0).len).inRange :=
  (extract_len_le_maxBytes f b0).trans (by cases f <;> decide)

/-- A payload of at most 30 bits, zero-extended, is in the range of Format A. -/
theorem payloadA_inRange {w len : Nat} (p : BitVec w) (hw : w ≤ 30) (hpos : 1 ≤ len) (hle : len ≤ 4) :
    (Result.decodedA ⟨p.setWidth 32, len⟩).inRange := by
  have hp : p.toNat < 2 ^ 30 := p.isLt.trans_le (Nat.pow_le_pow_right (by decide) hw)
  refine ⟨hpos, hle, ?_⟩
  simp only [BitVec.toNat_setWidth, Format.absoluteMax_A]
  omega

/-- A payload of at most 15 bits, zero-extended, is in the range of Format B. -/
theorem payloadB_inRange {w len : Nat} (p : BitVec w) (hw : w ≤ 15) (hpos : 1 ≤ len) (hle : len ≤ 2) :
    (Result.decodedB ⟨p.setWidth 16, len⟩).inRange := by
  have hp : p.toNat < 2 ^ 15 := p.isLt.trans_le (Nat.pow_le_pow_right (by decide) hw)
  refine ⟨hpos, hle, ?_⟩
  simp only [BitVec.toNat_setWidth, Format.absoluteMax_B]
  omega

/-- Every result an instruction delivers is in its range (R25, R27, R176). -/
theorem deliveredResult_inRange {s : State} {i : Instr} {r : Result} (h : deliveredResult s i = some r) : r.inRange := by
  have dlen : ∀ {f : Format} {b o : Nat}, (memRead s b o).map (fun b0 => Result.len (extract f b0).len) = some r →
      r.inRange := by
    intro f b o h
    obtain ⟨b0, -, rfl⟩ := Option.map_eq_some_iff.1 h
    exact extract_len_inRange f b0
  have dec : ∀ {f : Format} {b o : Nat}, (decodeAt f b o s).map (fun p => decodedOf f p.1 p.2) = some r →
      r.inRange := by
    intro f b o h
    obtain ⟨p, hp, rfl⟩ := Option.map_eq_some_iff.1 h
    exact decodedOf_inRange (decodeAt_inRange hp)
  cases i with
  | dlenA b o => exact dlen h
  | dlenB b o => exact dlen h
  | decA b o => exact dec h
  | decB b o => exact dec h
  | elenA v => exact Option.some.inj h ▸ encodedLength_inRange ..
  | elenB v => exact Option.some.inj h ▸ encodedLength_inRange ..
  | encA v b o => exact Option.some.inj h ▸ encodedLength_inRange ..
  | encB v b o => exact Option.some.inj h ▸ encodedLength_inRange ..
  | a1 p => exact Option.some.inj h ▸ payloadA_inRange p (by decide) (by decide) (by decide)
  | a2 p => exact Option.some.inj h ▸ payloadA_inRange p (by decide) (by decide) (by decide)
  | a3 p => exact Option.some.inj h ▸ payloadA_inRange p (by decide) (by decide) (by decide)
  | a4 p => exact Option.some.inj h ▸ payloadA_inRange p (by decide) (by decide) (by decide)
  | b1 p => exact Option.some.inj h ▸ payloadB_inRange p (by decide) (by decide) (by decide)
  | b2 p => exact Option.some.inj h ▸ payloadB_inRange p (by decide) (by decide) (by decide)

/-! ## The invariant -/

/-- A symmetric relation between the entries of a sorted table survives setting one entry that is related to every entry of another
key. -/
theorem tableSet_pairwise {α : Type} {R : Nat × α → Nat × α → Prop} (hsymm : ∀ x y, R x y → R y x) {t : List (Nat × α)}
    {k : Nat} {v : α} (hsorted : tableSorted t) (h : t.Pairwise R) (hv : ∀ e ∈ t, e.1 ≠ k → R (k, v) e) :
    (tableSet t k v).Pairwise R := by
  induction t with
  | nil => simp [tableSet]
  | cons d rest ih =>
    obtain ⟨hlt, hsorted⟩ := List.pairwise_cons.1 hsorted
    obtain ⟨hd, hrest⟩ := List.pairwise_cons.1 h
    have hvrest : ∀ e ∈ rest, e.1 ≠ k → R (k, v) e := fun e he => hv e (List.mem_cons_of_mem d he)
    rw [tableSet]
    split_ifs with heq hless
    · refine List.pairwise_cons.2 ⟨fun e he => hvrest e he ?_, hrest⟩
      have := hlt e he; omega
    · refine List.pairwise_cons.2 ⟨fun e he => hv e he ?_, h⟩
      rcases List.mem_cons.1 he with rfl | he
      · exact Ne.symm heq
      · have := hlt e he; omega
    · refine List.pairwise_cons.2 ⟨fun e he => ?_, ih hsorted hrest hvrest⟩
      rcases mem_tableSet he with rfl | he
      · exact hsymm _ _ (hv d List.mem_cons_self (Ne.symm heq))
      · exact hd e he

theorem Buffer.inOrder_mono {p q : Nat} {x : Buffer} (hpq : p ≤ q) (h : x.inOrder p) : x.inOrder q := by
  obtain ⟨hwf, hbound, hserial⟩ := h
  exact ⟨hwf, hbound, hserial.trans_le hpq⟩

theorem State.Inv.serial_ne {s : State} (h : s.Inv) {d e : Nat × Buffer} (hd : d ∈ s.buffers) (he : e ∈ s.buffers)
    (hne : d ≠ e) : d.2.serial ≠ e.2.serial := by
  have : Std.Symm fun x y : Nat × Buffer => x.2.serial ≠ y.2.serial := ⟨fun _ _ => Ne.symm⟩
  exact h.serials.forall hd he hne

/-- A buffer in order may be put under a name, if no buffer of another name has its hand-over number. -/
theorem State.Inv.setBuffer {s : State} (h : s.Inv) {name p : Nat} {x : Buffer} (hp : s.provided ≤ p) (hx : x.inOrder p)
    (hserial : ∀ e ∈ s.buffers, e.1 ≠ name → x.serial ≠ e.2.serial) :
    State.Inv { s with buffers := tableSet s.buffers name x, provided := p } where
  names := tableSet_sorted _ _ h.names
  inOrder e he := by
    rcases mem_tableSet he with rfl | he
    · exact hx
    · exact Buffer.inOrder_mono hp (h.inOrder e he)
  serials := tableSet_pairwise (fun _ _ => Ne.symm) h.names h.serials hserial
  results := h.results

theorem State.Inv.withMoves {s : State} (h : s.Inv) (ms : List HostMove) : State.Inv { s with moves := ms } :=
  ⟨h.names, h.inOrder, h.serials, h.results⟩

theorem State.Inv.provide {s : State} (h : s.Inv) (b len : Nat) : (s.provide b len).Inv :=
  h.setBuffer (Nat.le_succ _) ⟨List.Pairwise.nil, by simp, Nat.lt_succ_self _⟩ fun e he _ => by
    obtain ⟨-, -, hlt⟩ := h.inOrder e he
    exact hlt.ne'

theorem State.Inv.memWrite {s t : State} (h : s.Inv) {b a : Nat} {v : Byte} (hw : memWrite s b a v = some t) : t.Inv := by
  obtain ⟨x, hx, ha, rfl⟩ := memWrite_cases hw
  have hmem := mem_of_tableGet hx
  obtain ⟨hwf, hbound, hlt⟩ := h.inOrder _ hmem
  refine h.setBuffer (Nat.le_refl _) ⟨tableSet_sorted _ _ hwf, fun c hc => ?_, hlt⟩ fun e he hne => ?_
  · rcases mem_tableSet hc with rfl | hc
    · exact ha
    · exact hbound c hc
  · exact h.serial_ne hmem he fun heq => hne (heq ▸ rfl)

theorem State.Inv.writeBytes {s t : State} (h : s.Inv) {b a : Nat} {vs : List Byte}
    (hw : writeBytes s b a vs = some t) : t.Inv := by
  induction vs generalizing s a with
  | nil => exact Option.some.inj hw ▸ h
  | cons v vs ih =>
    obtain ⟨u, hu, ht⟩ := Option.bind_eq_some_iff.1 hw
    exact ih (h.memWrite hu) ht

theorem State.Inv.deliver {s : State} (h : s.Inv) {r : Result} (hr : r.inRange) : (s.deliver r).Inv where
  names := h.names
  inOrder := h.inOrder
  serials := h.serials
  results q hq := by
    rcases List.mem_append.1 hq with hq | hq
    · exact h.results q hq
    · exact List.mem_singleton.1 hq ▸ hr

theorem State.Inv.exec {s t : State} (h : s.Inv) {i : Instr} (he : exec i s = .next t) : t.Inv := by
  obtain ⟨r, u, hr, hu, rfl⟩ := exec_eq_next_iff.1 he
  exact (h.writeBytes hu).deliver (deliveredResult_inRange hr)

/-- Settles O43: each of the host's moves keeps the invariant, and so does having none left. -/
theorem stepKeepsTheInvariant : Obligations.StepKeepsTheInvariant := by
  intro s t h hstep
  rcases step_cases hstep with ⟨-, rfl⟩ | ⟨b, len, rest, -, rfl⟩ | ⟨b, i, v, rest, -, hw⟩ | ⟨c, rest, i, -, -, he⟩
  · exact h
  · exact (h.withMoves rest).provide b len
  · exact (h.withMoves rest).memWrite hw
  · exact (h.withMoves rest).exec he

/-! ## One byte, bounds and frames -/

/-- Settles O37: below `BUF_LEN` a byte can be read and written, and `memRead_memWrite` says what every byte reads as then; from
`BUF_LEN` on it can be neither. -/
theorem memWriteSetsOneByte : Obligations.MemWriteSetsOneByte := by
  refine fun s b a v => ⟨fun hin => ⟨?_, ?_⟩, fun hout => ⟨(memRead_eq_none_iff s b a).2 hout, ?_⟩⟩
  · exact Option.isSome_iff_exists.1 ((memRead_isSome_iff s b a).2 hin)
  · obtain ⟨t, ht⟩ := Option.isSome_iff_exists.1 ((memWrite_isSome_iff s b a v).2 hin)
    exact ⟨t, ht, by simp [memRead_memWrite ht], fun c i hne => by rw [memRead_memWrite ht, if_neg hne],
      memWrite_bufLen ht⟩
  · rw [← Option.not_isSome_iff_eq_none, memWrite_isSome_iff]
    exact Nat.not_lt.2 hout

/-- Settles O38: each clause gives its instruction's precondition. -/
theorem everyOperationCompletesWithinBounds : Obligations.EveryOperationCompletesWithinBounds := by
  intro s b o
  have enc : ∀ {f : Format} {v : Nat}, (v ≤ f.absoluteMax → o + encodedLength f v ≤ s.bufLen b) →
      encPrecondition f s v b o = true := by
    intro f v h
    rw [encPrecondition]
    split_ifs with hle
    · exact decide_eq_true (h hle)
    · rfl
  have dec : ∀ {f : Format} {b0 : Byte}, memRead s b o = some b0 → o + (extract f b0).len ≤ s.bufLen b →
      decPrecondition f s b o = true := by
    intro f b0 h0 h
    simpa [decPrecondition, h0] using h
  refine ⟨fun _ => exec_completes rfl, fun _ => exec_completes rfl,
    fun v _ hroom => exec_completes (enc (f := .A) fun _ => hroom),
    fun v _ hroom => exec_completes (enc (f := .B) fun _ => hroom),
    fun v hover => exec_completes (enc (f := .A) fun hle => absurd hover (Nat.not_lt.2 hle)),
    fun v hover => exec_completes (enc (f := .B) fun hle => absurd hover (Nat.not_lt.2 hle)),
    fun hin => ⟨exec_completes (decide_eq_true hin), exec_completes (decide_eq_true hin)⟩,
    fun b0 h0 => ⟨fun h => exec_completes (dec (f := .A) h0 h), fun h => exec_completes (dec (f := .B) h0 h)⟩,
    fun _ => exec_completes rfl, fun _ => exec_completes rfl, fun _ => exec_completes rfl,
    fun _ => exec_completes rfl, fun _ => exec_completes rfl, fun _ => exec_completes rfl⟩

/-- Settles O39: an instruction is refused where it has no effect, and it has one exactly under its precondition. -/
theorem refusedExactlyOutOfBounds : Obligations.RefusedExactlyOutOfBounds := by
  intro i s
  rw [exec_eq_refused_iff_effect, ← isSome_effect, Option.isSome_eq_false_iff, Option.isNone_iff_eq_none]

/-- Settles O40: a byte outside the write span is framed, and writing no byte leaves the buffers themselves. -/
theorem onlyTheWrittenBytesChange : Obligations.OnlyTheWrittenBytesChange := by
  intro i s t h
  refine ⟨fun b a hw => memRead_exec_of_not_written h hw, fun hcount => ?_⟩
  obtain ⟨r, u, -, hu, rfl⟩ := exec_eq_next_iff.1 h
  have hnil : writtenBytes i = [] := List.length_eq_zero_iff.1 ((length_writtenBytes i).trans hcount)
  rw [writeEffect_of_no_write hnil] at hu
  exact Option.some.inj hu ▸ rfl

/-! ## Disjoint operations -/

/-- Settles O42: each operation sees the bytes it reads as the other leaves them, which is as they were; and a byte reads as the one
operation that writes it wrote it. -/
theorem disjointOperationsCommute : Obligations.DisjointOperationsCommute := by
  intro i j s t u hi hj hiw hjw
  have hjread : deliveredResult t j = deliveredResult s j := deliveredResult_congr fun b a hr =>
    memRead_exec_of_not_written hi (Bool.eq_false_iff.2 fun hw => by simp [(hiw b a hw).2] at hr)
  obtain ⟨q, t', hj', hu, ht'⟩ := exec_of_same_result hj (fun b => (bufLen_exec hi b).symm) hjread.symm
  have hiread : deliveredResult t' i = deliveredResult s i := deliveredResult_congr fun b a hr =>
    memRead_exec_of_not_written hj' (Bool.eq_false_iff.2 fun hw => by simp [hjw b a hw] at hr)
  obtain ⟨r, u', hi', ht, hu'⟩ := exec_of_same_result hi (bufLen_exec hj') hiread
  refine ⟨t', u', r, q, hj', hi', by simp [hu, ht], by simp [hu', ht'], fun b a => ?_⟩
  rw [memRead_exec hi', memRead_exec hj', memRead_exec hj, memRead_exec hi]
  by_cases hw : (writeSpan i).has b a = true
  · simp [hw, (hiw b a hw).1]
  · simp [hw]

end Sys2Proof.Machine
end

section
/-! PROOFS. The encodings (30_encoding.md R70 to R86), and what each wire form delivers (43_decode.md R174).

A wire form stands as its selector, its first payload bits and its continuation bytes. One equation per form for the encoder
(`encode_a2`) and one for the decoder (`decodeWireA_a2`) speak of it so, and both directions of agreement follow from them. -/

namespace Sys2Proof.Machine

/-! ## Commands (R84 to R86) -/

/-- A 16-bit value is presented in the 32-bit value field as it is (R86). -/
theorem valueOperandB_setWidth (v : ValueB) : valueOperandB (v.setWidth 32) = .ok v := by
  have hfits : (v.setWidth 32).toNat < 2 ^ 16 := by
    rw [BitVec.toNat_setWidth_of_le (by decide)]; exact v.isLt
  rw [valueOperandB, if_pos hfits, BitVec.setWidth_setWidth_of_le _ (by decide), BitVec.setWidth_eq]

theorem valueOperandB_of_wide {v : BitVec 32} (h : 2 ^ 16 ≤ v.toNat) : valueOperandB v = .error .valueTooWide := by
  rw [valueOperandB, if_neg (Nat.not_lt.2 h)]

@[simp] theorem decode_code_elenA (v : ValueA) (b o : Nat) :
    decode (.command ⟨0b000#3, v, b, o⟩) = .ok (.elenA v) := rfl
@[simp] theorem decode_code_encA (v : ValueA) (b o : Nat) :
    decode (.command ⟨0b001#3, v, b, o⟩) = .ok (.encA v b o) := rfl
@[simp] theorem decode_code_dlenA (v : ValueA) (b o : Nat) :
    decode (.command ⟨0b010#3, v, b, o⟩) = .ok (.dlenA b o) := rfl
@[simp] theorem decode_code_decA (v : ValueA) (b o : Nat) :
    decode (.command ⟨0b011#3, v, b, o⟩) = .ok (.decA b o) := rfl
theorem decode_code_elenB (v : BitVec 32) (b o : Nat) :
    decode (.command ⟨0b100#3, v, b, o⟩) = (valueOperandB v).map .elenB := rfl
theorem decode_code_encB (v : BitVec 32) (b o : Nat) :
    decode (.command ⟨0b101#3, v, b, o⟩) = (valueOperandB v).map fun w => .encB w b o := rfl
@[simp] theorem decode_code_dlenB (v : BitVec 32) (b o : Nat) :
    decode (.command ⟨0b110#3, v, b, o⟩) = .ok (.dlenB b o) := rfl
@[simp] theorem decode_code_decB (v : BitVec 32) (b o : Nat) :
    decode (.command ⟨0b111#3, v, b, o⟩) = .ok (.decB b o) := rfl

@[simp] theorem decode_code_elenB_of_value (v : ValueB) (b o : Nat) :
    decode (.command ⟨0b100#3, v.setWidth 32, b, o⟩) = .ok (.elenB v) := by
  rw [decode_code_elenB, valueOperandB_setWidth]; rfl

@[simp] theorem decode_code_encB_of_value (v : ValueB) (b o : Nat) :
    decode (.command ⟨0b101#3, v.setWidth 32, b, o⟩) = .ok (.encB v b o) := by
  rw [decode_code_encB, valueOperandB_setWidth]; rfl

/-- Settles O1: the decoder's equation for each of the eight codes. -/
theorem commandCodesPresentTheirOperations : Obligations.CommandCodesPresentTheirOperations := fun v vB b o =>
  ⟨decode_code_elenA v b o, decode_code_encA v b o, decode_code_dlenA v b o, decode_code_decA v b o,
    decode_code_elenB_of_value vB b o, decode_code_encB_of_value vB b o, decode_code_dlenB v b o, decode_code_decB v b o⟩

/-- A Format B command that uses a value of more than 16 bits presents no instruction (R86). -/
theorem decode_command_of_wide {c : Command} (hcode : c.cmd = 0b100#3 ∨ c.cmd = 0b101#3) (hwide : 2 ^ 16 ≤ c.value.toNat) :
    decode (.command c) = .error .valueTooWide := by
  obtain ⟨cmd, v, b, o⟩ := c
  rcases hcode with rfl | rfl
  · rw [decode_code_elenB, valueOperandB_of_wide hwide]; rfl
  · rw [decode_code_encB, valueOperandB_of_wide hwide]; rfl

/-- A command that presents no instruction is refused, with the reason it presents none. -/
theorem issueCommand_of_decode_error {c : Command} {r : Reject} (h : decode (.command c) = .error r) (s : State) :
    issueCommand c s = .refused (.notPresentable r) := by
  rw [issueCommand, h]

/-- Settles O9: the step issues the command, which presents no instruction. -/
theorem wideFormatBValueIsNotPresentable : Obligations.WideFormatBValueIsNotPresentable := by
  intro s c rest hmoves hcode hwide
  calc step s = issueCommand c { s with moves := rest } := step_of_issue hmoves
    _ = .refused (.notPresentable .valueTooWide) := issueCommand_of_decode_error (decode_command_of_wide hcode hwide) _

/-! ## A wire form by its parts (R70, R72, R73) -/

/-- A word of two parts is its high part followed by its low part. -/
theorem exists_append {m n : Nat} (x : BitVec (m + n)) : ∃ (p : BitVec m) (c : BitVec n), x = p ++ c :=
  ⟨_, _, BitVec.extractLsb'_append_extractLsb'.symm⟩

theorem selectorBits_A (k : BitVec 2) (p : BitVec 6) : (k ++ p : Byte).extractLsb' 6 2 = k :=
  BitVec.extractLsb'_append_eq_left

theorem selectorBits_B (k : BitVec 1) (p : BitVec 7) : (k ++ p : Byte).extractLsb' 7 1 = k :=
  BitVec.extractLsb'_append_eq_left

theorem payloadBitsA_append (k : BitVec 2) (p : BitVec 6) : payloadBitsA (k ++ p) = p :=
  BitVec.extractLsb'_append_eq_right

theorem payloadBitsB_append (k : BitVec 1) (p : BitVec 7) : payloadBitsB (k ++ p) = p :=
  BitVec.extractLsb'_append_eq_right

theorem encode_a1 (p : BitVec 6) : encode (.a1 p) = .encoding .A [0b00#2 ++ p] := rfl

theorem encode_a2 (p : BitVec 6) (c1 : Byte) : encode (.a2 (p ++ c1)) = .encoding .A [0b01#2 ++ p, c1] := by
  have h0 : (p ++ c1).extractLsb' 8 6 = p := BitVec.extractLsb'_append_eq_left
  have h1 : (p ++ c1).extractLsb' 0 8 = c1 := BitVec.extractLsb'_append_eq_right
  simp only [encode]
  rw [h0, h1]

theorem encode_a3 (p : BitVec 6) (c1 c2 : Byte) :
    encode (.a3 (p ++ c1 ++ c2)) = .encoding .A [0b10#2 ++ p, c1, c2] := by
  have h0 : (p ++ c1 ++ c2).extractLsb' 16 6 = p := by
    rw [BitVec.extractLsb'_append_eq_of_le (by decide)]; exact BitVec.extractLsb'_append_eq_left
  have h1 : (p ++ c1 ++ c2).extractLsb' 8 8 = c1 := by
    rw [BitVec.extractLsb'_append_eq_of_le (by decide)]; exact BitVec.extractLsb'_append_eq_right
  have h2 : (p ++ c1 ++ c2).extractLsb' 0 8 = c2 := BitVec.extractLsb'_append_eq_right
  simp only [encode]
  rw [h0, h1, h2]

theorem encode_a4 (p : BitVec 6) (c1 c2 c3 : Byte) :
    encode (.a4 (p ++ c1 ++ c2 ++ c3)) = .encoding .A [0b11#2 ++ p, c1, c2, c3] := by
  have h0 : (p ++ c1 ++ c2 ++ c3).extractLsb' 24 6 = p := by
    rw [BitVec.extractLsb'_append_eq_of_le (by decide), BitVec.extractLsb'_append_eq_of_le (by decide)]
    exact BitVec.extractLsb'_append_eq_left
  have h1 : (p ++ c1 ++ c2 ++ c3).extractLsb' 16 8 = c1 := by
    rw [BitVec.extractLsb'_append_eq_of_le (by decide), BitVec.extractLsb'_append_eq_of_le (by decide)]
    exact BitVec.extractLsb'_append_eq_right
  have h2 : (p ++ c1 ++ c2 ++ c3).extractLsb' 8 8 = c2 := by
    rw [BitVec.extractLsb'_append_eq_of_le (by decide)]; exact BitVec.extractLsb'_append_eq_right
  have h3 : (p ++ c1 ++ c2 ++ c3).extractLsb' 0 8 = c3 := BitVec.extractLsb'_append_eq_right
  simp only [encode]
  rw [h0, h1, h2, h3]

theorem encode_b1 (p : BitVec 7) : encode (.b1 p) = .encoding .B [0b0#1 ++ p] := rfl

theorem encode_b2 (p : BitVec 7) (c1 : Byte) : encode (.b2 (p ++ c1)) = .encoding .B [0b1#1 ++ p, c1] := by
  have h0 : (p ++ c1).extractLsb' 8 7 = p := BitVec.extractLsb'_append_eq_left
  have h1 : (p ++ c1).extractLsb' 0 8 = c1 := BitVec.extractLsb'_append_eq_right
  simp only [encode]
  rw [h0, h1]

theorem decodeWireA_a1 (p : BitVec 6) (tail : List Byte) : decodeWireA ((0b00#2 ++ p) :: tail) = .ok (.a1 p, tail) := by
  simp [decodeWireA, selectorBits_A, payloadBitsA_append]

theorem decodeWireA_a2 (p : BitVec 6) (c1 : Byte) (tail : List Byte) :
    decodeWireA ((0b01#2 ++ p) :: c1 :: tail) = .ok (.a2 (p ++ c1), tail) := by
  simp [decodeWireA, selectorBits_A, payloadBitsA_append]

theorem decodeWireA_a3 (p : BitVec 6) (c1 c2 : Byte) (tail : List Byte) :
    decodeWireA ((0b10#2 ++ p) :: c1 :: c2 :: tail) = .ok (.a3 (p ++ c1 ++ c2), tail) := by
  simp [decodeWireA, selectorBits_A, payloadBitsA_append]

theorem decodeWireA_a4 (p : BitVec 6) (c1 c2 c3 : Byte) (tail : List Byte) :
    decodeWireA ((0b11#2 ++ p) :: c1 :: c2 :: c3 :: tail) = .ok (.a4 (p ++ c1 ++ c2 ++ c3), tail) := by
  simp [decodeWireA, selectorBits_A, payloadBitsA_append]

theorem decodeWireB_b1 (p : BitVec 7) (tail : List Byte) : decodeWireB ((0b0#1 ++ p) :: tail) = .ok (.b1 p, tail) := by
  simp [decodeWireB, selectorBits_B, payloadBitsB_append]

theorem decodeWireB_b2 (p : BitVec 7) (c1 : Byte) (tail : List Byte) :
    decodeWireB ((0b1#1 ++ p) :: c1 :: tail) = .ok (.b2 (p ++ c1), tail) := by
  simp [decodeWireB, selectorBits_B, payloadBitsB_append]

/-! ## Encoder and decoder agree -/

/-- Bytes that a form takes whole present it. -/
theorem decode_of_decodeWire {f : Format} {bytes : List Byte} {i : Instr} (h : decodeWire f bytes = .ok (i, [])) :
    decode (.encoding f bytes) = .ok i := by
  rw [decode, decodeWireWhole, h]

/-- Settles O3: a command by its code's equation; a wire form by its encoder's and its decoder's equations, the payload taken apart
into first payload bits and continuation bytes. -/
theorem decodeOfEncodeIsTheInstruction : Obligations.DecodeOfEncodeIsTheInstruction := by
  intro i
  cases i with
  | elenA v => exact decode_code_elenA v 0 0
  | encA v b o => exact decode_code_encA v b o
  | dlenA b o => exact decode_code_dlenA 0#32 b o
  | decA b o => exact decode_code_decA 0#32 b o
  | elenB v => exact decode_code_elenB_of_value v 0 0
  | encB v b o => exact decode_code_encB_of_value v b o
  | dlenB b o => exact decode_code_dlenB 0#32 b o
  | decB b o => exact decode_code_decB 0#32 b o
  | a1 v => exact decode_of_decodeWire (decodeWireA_a1 v [])
  | a2 v =>
    obtain ⟨p, c1, rfl⟩ := exists_append (m := 6) (n := 8) v
    rw [encode_a2]
    exact decode_of_decodeWire (decodeWireA_a2 p c1 [])
  | a3 v =>
    obtain ⟨q, c2, rfl⟩ := exists_append (m := 14) (n := 8) v
    obtain ⟨p, c1, rfl⟩ := exists_append (m := 6) (n := 8) q
    rw [encode_a3]
    exact decode_of_decodeWire (decodeWireA_a3 p c1 c2 [])
  | a4 v =>
    obtain ⟨r, c3, rfl⟩ := exists_append (m := 22) (n := 8) v
    obtain ⟨q, c2, rfl⟩ := exists_append (m := 14) (n := 8) r
    obtain ⟨p, c1, rfl⟩ := exists_append (m := 6) (n := 8) q
    rw [encode_a4]
    exact decode_of_decodeWire (decodeWireA_a4 p c1 c2 c3 [])
  | b1 v => exact decode_of_decodeWire (decodeWireB_b1 v [])
  | b2 v =>
    obtain ⟨p, c1, rfl⟩ := exists_append (m := 7) (n := 8) v
    rw [encode_b2]
    exact decode_of_decodeWire (decodeWireB_b2 p c1 [])

/-- Settles O4: the form that the bytes present is known by its parts, and its encoder puts byte 0 together again. -/
theorem encodeOfAWholeEncodingIsItsBytes : Obligations.EncodeOfAWholeEncodingIsItsBytes := by
  intro f bytes i h
  have hwire := decodeWire_of_whole h
  cases f with
  | A =>
    obtain ⟨b0, ⟨hk, rfl, rfl⟩ | ⟨c1, hk, rfl, rfl⟩ | ⟨c1, c2, hk, rfl, rfl⟩ | ⟨c1, c2, c3, hk, rfl, rfl⟩⟩ :=
      decodeWireA_cases hwire
    · rw [encode_a1, firstByte_A hk]
    · rw [encode_a2, firstByte_A hk]
    · rw [encode_a3, firstByte_A hk]
    · rw [encode_a4, firstByte_A hk]
  | B =>
    obtain ⟨b0, ⟨hk, rfl, rfl⟩ | ⟨c1, hk, rfl, rfl⟩⟩ := decodeWireB_cases hwire
    · rw [encode_b1, firstByte_B hk]
    · rw [encode_b2, firstByte_B hk]

/-- Settles O2: the decoder run on the six byte strings. -/
theorem wordsFromTheSpecDecode : Obligations.WordsFromTheSpecDecode := by
  unfold Obligations.WordsFromTheSpecDecode
  decide

/-! ## The length that byte 0 names (R75, R77) -/

/-- The header bits `byte0[7:6]` as a number are the selector of the bit drawings. -/
theorem slice_header_A (b0 : Byte) : slice b0.toNat 7 (8 - Format.A.headerBits) = (b0.extractLsb' 6 2).toNat :=
  (BitVec.extractLsb'_toNat ..).symm

theorem slice_header_B (b0 : Byte) : slice b0.toNat 7 (8 - Format.B.headerBits) = (b0.extractLsb' 7 1).toNat :=
  (BitVec.extractLsb'_toNat ..).symm

/-- A form takes byte 0 and as many continuation bytes as the header bits name. -/
theorem decodeWire_takes {f : Format} {b0 : Byte} {rest tail : List Byte} {i : Instr}
    (h : decodeWire f (b0 :: rest) = .ok (i, tail)) :
    slice b0.toNat 7 (8 - f.headerBits) ≤ rest.length ∧ tail = rest.drop (slice b0.toNat 7 (8 - f.headerBits)) := by
  cases f with
  | A =>
    rw [slice_header_A]
    obtain ⟨_, ⟨hk, hb, -⟩ | ⟨c1, hk, hb, -⟩ | ⟨c1, c2, hk, hb, -⟩ | ⟨c1, c2, c3, hk, hb, -⟩⟩ :=
      decodeWireA_cases (bytes := b0 :: rest) h
    all_goals
      obtain ⟨rfl, rfl⟩ := List.cons.inj hb
      simp [hk]
  | B =>
    rw [slice_header_B]
    obtain ⟨_, ⟨hk, hb, -⟩ | ⟨c1, hk, hb, -⟩⟩ := decodeWireB_cases (bytes := b0 :: rest) h
    all_goals
      obtain ⟨rfl, rfl⟩ := List.cons.inj hb
      simp [hk]

theorem decodeWireA_error {b0 : Byte} {rest : List Byte} {r : Reject} (h : decodeWireA (b0 :: rest) = .error r) :
    rest.length < (b0.extractLsb' 6 2).toNat ∧ r = .truncated := by
  simp only [decodeWireA] at h
  split_ifs at h with h0 h1 h2
  · rcases rest with _ | ⟨c1, tail⟩ <;> cases h
    simp [h1]
  · rcases rest with _ | ⟨c1, _ | ⟨c2, tail⟩⟩ <;> cases h <;> simp [h2]
  · have h3 := selector_last_A _ h0 h1 h2
    rcases rest with _ | ⟨c1, _ | ⟨c2, _ | ⟨c3, tail⟩⟩⟩ <;> cases h <;> simp [h3]

theorem decodeWireB_error {b0 : Byte} {rest : List Byte} {r : Reject} (h : decodeWireB (b0 :: rest) = .error r) :
    rest.length < (b0.extractLsb' 7 1).toNat ∧ r = .truncated := by
  simp only [decodeWireB] at h
  split_ifs at h with h0
  have h1 := selector_last_B _ h0
  rcases rest with _ | ⟨c1, tail⟩ <;> cases h
  simp [h1]

/-- The one reason for which bytes with a byte 0 begin no form: fewer continuation bytes than the header bits name. -/
theorem decodeWire_error {f : Format} {b0 : Byte} {rest : List Byte} {r : Reject}
    (h : decodeWire f (b0 :: rest) = .error r) :
    rest.length < slice b0.toNat 7 (8 - f.headerBits) ∧ r = .truncated := by
  cases f with
  | A => rw [slice_header_A]; exact decodeWireA_error h
  | B => rw [slice_header_B]; exact decodeWireB_error h

/-- Settles O5: a form takes the bytes its header bits name, and bytes that begin none are fewer than those. -/
theorem everyFirstByteBeginsAForm : Obligations.EveryFirstByteBeginsAForm := by
  intro f b0 rest
  cases h : decodeWire f (b0 :: rest) with
  | ok form =>
    obtain ⟨i, tail⟩ := form
    obtain ⟨hle, rfl⟩ := decodeWire_takes h
    exact ⟨fun _ => ⟨i, rfl⟩, fun hlt => absurd hle (Nat.not_le.2 hlt)⟩
  | error r =>
    obtain ⟨hlt, rfl⟩ := decodeWire_error h
    exact ⟨fun hle => absurd hle (Nat.not_le.2 hlt), fun _ => rfl⟩

/-! ## `pack` as the digits of a number (R71) -/

/-- A slice by its place and its width. -/
theorem slice_eq_div_mod {x hi lo w : Nat} (h : hi + 1 = lo + w) : slice x hi lo = x / 2 ^ lo % 2 ^ w := by
  rw [slice, Nat.shiftRight_eq_div_pow, h, Nat.add_sub_cancel_left]

/-- The low `n` bytes of a number, the most significant first. -/
def lowBytes (e : Nat) : Nat → List Byte
  | 0 => []
  | n + 1 => BitVec.ofNat 8 (e / 2 ^ (8 * n)) :: lowBytes e n

theorem length_lowBytes (e n : Nat) : (lowBytes e n).length = n := by
  induction n with
  | zero => rfl
  | succ n ih => rw [lowBytes, List.length_cons, ih]

/-- The shifts and masks of R120 take the low bytes of a number. -/
theorem map_range_eq_lowBytes (e n : Nat) :
    ((List.range n).map fun i => BitVec.ofNat 8 ((e >>> (8 * (n - 1 - i))) &&& 0xFF)) = lowBytes e n := by
  induction n with
  | zero => rfl
  | succ n ih =>
    rw [List.range_succ_eq_map, List.map_cons, List.map_map, lowBytes, ← ih, byteOf_shift]
    simp only [Function.comp_def, Nat.succ_eq_add_one, Nat.add_sub_cancel, Nat.sub_zero, Nat.sub_sub,
      Nat.add_comm 1]

theorem pack_eq_lowBytes (f : Format) (len v : Nat) : pack f len v = lowBytes (encodingNumber f len v) len :=
  map_range_eq_lowBytes ..

/-- The low bytes of a number, read big-endian, are the number's low bits (R43). -/
theorem bigEndian_lowBytes (e n : Nat) : bigEndian (lowBytes e n) = e % 256 ^ n := by
  induction n with
  | zero => rw [Nat.pow_zero, Nat.mod_one]; rfl
  | succ n ih =>
    rw [lowBytes, bigEndian, ih, length_lowBytes, BitVec.toNat_ofNat, Nat.mod_pow_succ (b := 256), Nat.pow_mul,
      Nat.mul_comm, Nat.add_comm]

theorem getElem?_pack (f : Format) (v : Nat) {len i : Nat} (hi : i < len) :
    ((pack f len v)[i]?).map BitVec.toNat =
      some (slice (encodingNumber f len v) (8 * (len - i) - 1) (8 * (len - 1 - i))) := by
  rw [slice_eq_div_mod (w := 8) (by omega)]
  simp only [pack, List.getElem?_map, List.getElem?_range hi, Option.map_some, byteOf_shift, BitVec.toNat_ofNat]

theorem headerBits_lt_of_pos (f : Format) {len : Nat} (hpos : 1 ≤ len) : f.headerBits < 8 * len := by
  cases f <;> simp <;> omega

theorem lt_of_le_maxValueForLength {f : Format} {len v : Nat} (h : v ≤ f.maxValueForLength len) :
    v < 2 ^ (8 * len - f.headerBits) :=
  Nat.lt_of_le_pred (Nat.two_pow_pos _) h

/-- The encoding fits its bytes: the selector `len - 1` fits the header bits, and the value the rest. -/
theorem encodingNumber_lt {f : Format} {len v : Nat} (hpos : 1 ≤ len) (hle : len ≤ f.maxBytes)
    (hv : v < 2 ^ (8 * len - f.headerBits)) : encodingNumber f len v < 256 ^ len :=
  calc encodingNumber f len v = (len - 1) * 2 ^ (8 * len - f.headerBits) + v := encodingNumber_eq hv
    _ < (len - 1) * 2 ^ (8 * len - f.headerBits) + 2 ^ (8 * len - f.headerBits) := Nat.add_lt_add_left hv _
    _ = len * 2 ^ (8 * len - f.headerBits) := by rw [← Nat.succ_mul, Nat.succ_eq_add_one, Nat.sub_add_cancel hpos]
    _ ≤ 2 ^ f.headerBits * 2 ^ (8 * len - f.headerBits) := Nat.mul_le_mul_right _ hle
    _ = 256 ^ len := by
      rw [← Nat.pow_add, Nat.add_sub_cancel' (headerBits_lt_of_pos f hpos).le, Nat.pow_mul]

/-- The top `H` bits of the encoding are the selector (R71). -/
theorem slice_selector_encodingNumber {f : Format} {len v : Nat} (hpos : 1 ≤ len) (hle : len ≤ f.maxBytes)
    (hv : v < 2 ^ (8 * len - f.headerBits)) :
    slice (encodingNumber f len v) (8 * len - 1) (8 * len - f.headerBits) = len - 1 := by
  have hbits := headerBits_lt_of_pos f hpos
  have hsel : len - 1 < 2 ^ f.headerBits := Nat.lt_of_lt_of_le (Nat.sub_lt hpos Nat.one_pos) hle
  rw [slice_eq_div_mod (w := f.headerBits) (by omega), encodingNumber_eq hv, Nat.mul_comm,
    Nat.mul_add_div (Nat.two_pow_pos _), Nat.div_eq_of_lt hv, Nat.add_zero, Nat.mod_eq_of_lt hsel]

/-- The rest of the encoding is the value (R71). -/
theorem slice_value_encodingNumber {f : Format} {len v : Nat} (hpos : 1 ≤ len)
    (hv : v < 2 ^ (8 * len - f.headerBits)) :
    slice (encodingNumber f len v) (8 * len - f.headerBits - 1) 0 = v := by
  have hbits := headerBits_lt_of_pos f hpos
  rw [slice_eq_div_mod (w := 8 * len - f.headerBits) (by omega), encodingNumber_eq hv, Nat.pow_zero, Nat.div_one,
    Nat.mul_comm, Nat.mul_add_mod, Nat.mod_eq_of_lt hv]

/-- Settles O19: the bytes of `pack` are the low bytes of the encoding, which fits them. -/
theorem packIsTheEncodingNumber : Obligations.PackIsTheEncodingNumber := by
  rintro f len v hpos hle hmax e rfl
  have hv := lt_of_le_maxValueForLength hmax
  have hbytes : bigEndian (pack f len v) = encodingNumber f len v := by
    rw [pack_eq_lowBytes, bigEndian_lowBytes, Nat.mod_eq_of_lt (encodingNumber_lt hpos hle hv)]
  exact ⟨encodingNumber_eq hv, pack_length f len v, fun i hi => getElem?_pack f v hi, hbytes,
    slice_selector_encodingNumber hpos hle hv, slice_value_encodingNumber hpos hv⟩

/-! ## What a wire form delivers (R74, R174) -/

/-- Settles O26: a wire form's effect is its delivered result and nothing else. -/
theorem wireFormsDeliverTheirPayload : Obligations.WireFormsDeliverTheirPayload := fun _ =>
  ⟨fun _ => exec_eq_next_iff_effect.2 rfl, fun _ => exec_eq_next_iff_effect.2 rfl,
    fun _ => exec_eq_next_iff_effect.2 rfl, fun _ => exec_eq_next_iff_effect.2 rfl,
    fun _ => exec_eq_next_iff_effect.2 rfl, fun _ => exec_eq_next_iff_effect.2 rfl⟩

end Sys2Proof.Machine
end

section
/-! PROOFS. The encoded length (40_encoded_length.md R100 to R104).

`encodedLength` is the least length that can hold the value (`encodedLength_isLeast`). The two hardware readings are its scan from the
longest form down (`encodedLength_A_topDown`), once by thresholds and once by bit tests; each test of a group of value bits is a
threshold test, given that every group above it is zero (`slice_ne_zero_iff`). -/

namespace Sys2Proof.Machine

/-! ## The least length (R100) -/

/-- A value of the format has a least length, since the longest form can hold it. -/
theorem encodedLength_isLeast {f : Format} {v : Nat} (h : v ≤ f.absoluteMax) :
    IsLeast {len | 1 ≤ len ∧ len ≤ f.maxBytes ∧ v ≤ f.maxValueForLength len} (encodedLength f v) := by
  have hpos : 1 ≤ f.maxBytes := Nat.one_le_two_pow
  have hsome : ((List.range' 1 f.maxBytes).find? fun len => decide (v ≤ f.maxValueForLength len)).isSome :=
    List.find?_isSome.2 ⟨f.maxBytes, List.mem_range'_1.2 (by omega), decide_eq_true h⟩
  obtain ⟨len, hfind⟩ := Option.isSome_iff_exists.1 hsome
  have hlen : encodedLength f v = len := by rw [encodedLength, if_neg (Nat.not_lt.2 h), hfind, Option.getD_some]
  obtain ⟨hfits, hmem, hbelow⟩ := List.find?_range'_eq_some.1 hfind
  have hrange := List.mem_range'_1.1 hmem
  rw [hlen]
  refine ⟨⟨hrange.1, by omega, of_decide_eq_true hfits⟩, fun k ⟨hk, _, hkfits⟩ => Nat.not_lt.1 fun hlt => ?_⟩
  simpa [hkfits] using hbelow k hk hlt

/-- Settles O13: 0 above the format's maximum, and otherwise the least of the lengths that can hold the value. -/
theorem encodedLengthIsTheLeastLength : Obligations.EncodedLengthIsTheLeastLength := by
  intro f v
  refine ⟨(encodedLength_eq_zero_iff f v).2, fun h => ?_⟩
  obtain ⟨⟨hpos, hle, hfits⟩, hleast⟩ := encodedLength_isLeast h
  exact ⟨hpos, hle, hfits, fun len h1 hmax hv => hleast ⟨h1, hmax, hv⟩⟩

/-! ## The scan from the longest form down (R101, R102) -/

theorem encodedLength_A_topDown (v : Nat) : encodedLength .A v =
    if v > 1073741823 then 0 else if v > 4194303 then 4 else if v > 16383 then 3 else if v > 63 then 2 else 1 := by
  rw [encodedLength_A]; split_ifs <;> omega

theorem encodedLength_B_topDown (v : Nat) : encodedLength .B v =
    if v > 32767 then 0 else if v > 127 then 2 else 1 := by
  rw [encodedLength_B]; split_ifs <;> omega

theorem exec_elenA (v : ValueA) (s : State) :
    exec (.elenA v) s = .next (s.deliver (.len (encodedLength .A v.toNat))) := rfl

theorem exec_elenB (v : ValueB) (s : State) :
    exec (.elenB v) s = .next (s.deliver (.len (encodedLength .B v.toNat))) := rfl

/-- Settles O11: ELEN.A delivers the length, which is read off the thresholds from the top down. -/
theorem elenAReturnsTheLength : Obligations.ElenAReturnsTheLength := fun v s b o =>
  ⟨decode_code_elenA v b o, by rw [exec_elenA, encodedLength_A_topDown]; rfl⟩

/-- Settles O12: ELEN.B delivers the length, which is read off the thresholds from the top down. -/
theorem elenBReturnsTheLength : Obligations.ElenBReturnsTheLength := fun v s b o =>
  ⟨decode_code_elenB_of_value v b o, by rw [exec_elenB, encodedLength_B_topDown]; rfl⟩

/-! ## The scan by bit tests (R103) -/

/-- A number with no bit above `hi` has a bit from `lo` on exactly where it is at least `2 ^ lo`. -/
theorem slice_ne_zero_iff {v hi lo : Nat} (hlo : lo ≤ hi) (hv : v < 2 ^ (hi + 1)) : slice v hi lo ≠ 0 ↔ 2 ^ lo ≤ v := by
  have hwidth : hi + 1 = lo + (hi + 1 - lo) := by omega
  have hquot : v / 2 ^ lo < 2 ^ (hi + 1 - lo) := Nat.div_lt_of_lt_mul (by rwa [← Nat.pow_add, ← hwidth])
  rw [slice_eq_div_mod hwidth, Nat.mod_eq_of_lt hquot, Nat.div_ne_zero_iff]
  exact and_iff_right (Nat.two_pow_pos lo).ne'

/-- One stage of the priority encoder: the threshold test is the test of the group of bits `hi:lo`, and the stages below it see
a value with no bit from `lo` on. -/
theorem ite_threshold_eq_ite_slice {v hi lo m n p q : Nat} (hlo : lo ≤ hi) (hm : m + 1 = 2 ^ lo) (hv : v < 2 ^ (hi + 1))
    (hrest : v < 2 ^ lo → p = q) : (if v > m then n else p) = if slice v hi lo ≠ 0 then n else q := by
  have htest : v > m ↔ slice v hi lo ≠ 0 := by rw [slice_ne_zero_iff hlo hv, ← hm]; rfl
  exact ite_congr (propext htest) (fun _ => rfl) fun hno =>
    hrest (Nat.not_le.1 fun hle => hno ((slice_ne_zero_iff hlo hv).2 hle))

/-- Settles O14: the stages of the top-down scan, one by one, as bit tests. -/
theorem encodedLengthByBitTests : Obligations.EncodedLengthByBitTests := by
  constructor
  · intro v
    rw [encodedLength_A_topDown]
    exact ite_threshold_eq_ite_slice (by decide) rfl v.isLt fun h30 =>
      ite_threshold_eq_ite_slice (by decide) rfl h30 fun h22 =>
      ite_threshold_eq_ite_slice (by decide) rfl h22 fun h14 =>
      ite_threshold_eq_ite_slice (by decide) rfl h14 fun _ => rfl
  · intro v
    rw [encodedLength_B_topDown]
    exact ite_threshold_eq_ite_slice (by decide) rfl v.isLt fun h15 =>
      ite_threshold_eq_ite_slice (by decide) rfl h15 fun _ => rfl

end Sys2Proof.Machine
end

section
/-! PROOFS. `encode` (41_encode.md R120 to R129).

Byte 0 of `pack` is the selector followed by the first payload bits, and the other bytes are the payload's low bytes
(`pack_eq_firstByte_cons`, the second form of R120); the six bit drawings follow from it. What ENC leaves is said once, for the shared
operation of both formats (`doEncode_in_bounds`). -/

namespace Sys2Proof.Machine

/-! ## `pack` by bytes (R120, R121) -/

/-- The low bytes of a bit vector are its slices of eight bits. -/
theorem lowBytes_toNat_succ {w : Nat} (x : BitVec w) (n : Nat) :
    lowBytes x.toNat (n + 1) = x.extractLsb' (8 * n) 8 :: lowBytes x.toNat n := by
  rw [lowBytes, ← Nat.shiftRight_eq_div_pow]; rfl

/-- The low `n` bytes do not see what stands above them. -/
theorem lowBytes_mul_add (a e n : Nat) : lowBytes (2 ^ (8 * n) * a + e) n = lowBytes e n := by
  induction n generalizing a with
  | zero => rfl
  | succ n ih =>
    have hsplit : 2 ^ (8 * (n + 1)) * a = 2 ^ (8 * n) * (2 ^ 8 * a) := by rw [Nat.mul_succ, Nat.pow_add, Nat.mul_assoc]
    have hbyte : BitVec.ofNat 8 (2 ^ 8 * a + e / 2 ^ (8 * n)) = BitVec.ofNat 8 (e / 2 ^ (8 * n)) :=
      BitVec.eq_of_toNat_eq (by rw [BitVec.toNat_ofNat, BitVec.toNat_ofNat, Nat.mul_add_mod])
    rw [lowBytes, lowBytes, hsplit, ih, Nat.mul_add_div (Nat.two_pow_pos _), hbyte]

/-- The encoding of a payload, with the selector moved to the place of byte 0. -/
theorem encodingNumber_toNat {f : Format} {n w : Nat} (hw : f.headerBits + w = 8) (v : BitVec (8 * n + w)) :
    encodingNumber f (n + 1) v.toNat = 2 ^ (8 * n) * (n * 2 ^ w) + v.toNat := by
  have hbits : 8 * (n + 1) - f.headerBits = 8 * n + w := by omega
  rw [encodingNumber_eq (by rw [hbits]; exact v.isLt), hbits, Nat.add_sub_cancel, Nat.pow_add, Nat.mul_left_comm]

/-- Byte 0 holds the selector and the first payload bits, and the payload's other bits follow (R120). -/
theorem pack_eq_firstByte_cons {f : Format} {n w : Nat} (hw : f.headerBits + w = 8) (k : BitVec f.headerBits)
    (hk : k.toNat = n) (v : BitVec (8 * n + w)) :
    pack f (n + 1) v.toNat = (k ++ v.extractLsb' (8 * n) w).cast hw :: lowBytes v.toNat n := by
  have hfirst : n * 2 ^ w + v.toNat / 2 ^ (8 * n) = (k ++ v.extractLsb' (8 * n) w).toNat := by
    have hquot : v.toNat / 2 ^ (8 * n) < 2 ^ w := Nat.div_lt_of_lt_mul (by rw [← Nat.pow_add]; exact v.isLt)
    rw [toNat_append_eq, hk, BitVec.extractLsb'_toNat, Nat.shiftRight_eq_div_pow, Nat.mod_eq_of_lt hquot]
  rw [pack_eq_lowBytes, encodingNumber_toNat hw, lowBytes, Nat.mul_add_div (Nat.two_pow_pos _), lowBytes_mul_add, hfirst,
    ← BitVec.toNat_cast hw, BitVec.ofNat_toNat, BitVec.setWidth_eq]

/-- Settles O20: each form's selector and payload width, put into the one equation of `pack`. -/
theorem packWrittenOutByForms : Obligations.PackWrittenOutByForms := by
  refine ⟨fun v => ?a1, fun v => ?a2, fun v => ?a3, fun v => ?a4, fun v => ?b1, fun v => ?b2⟩
  case a1 =>
    rw [pack_eq_firstByte_cons (f := .A) (n := 0) (w := 6) rfl 0b00#2 rfl v, BitVec.extractLsb'_eq_self]; rfl
  case a2 =>
    rw [pack_eq_firstByte_cons (f := .A) (n := 1) (w := 6) rfl 0b01#2 rfl v, lowBytes_toNat_succ]; rfl
  case a3 =>
    rw [pack_eq_firstByte_cons (f := .A) (n := 2) (w := 6) rfl 0b10#2 rfl v, lowBytes_toNat_succ, lowBytes_toNat_succ]; rfl
  case a4 =>
    rw [pack_eq_firstByte_cons (f := .A) (n := 3) (w := 6) rfl 0b11#2 rfl v, lowBytes_toNat_succ, lowBytes_toNat_succ,
      lowBytes_toNat_succ]; rfl
  case b1 =>
    rw [pack_eq_firstByte_cons (f := .B) (n := 0) (w := 7) rfl 0b0#1 rfl v, BitVec.extractLsb'_eq_self]; rfl
  case b2 =>
    rw [pack_eq_firstByte_cons (f := .B) (n := 1) (w := 7) rfl 0b1#1 rfl v, lowBytes_toNat_succ]; rfl

/-! ## ENC (R122, R123, R125 to R128) -/

/-- Bytes read back where they were written are the bytes written. -/
theorem readBytes_writeBytes {s t : State} {b a : Nat} {vs : List Byte} (h : writeBytes s b a vs = some t) :
    readBytes t b a vs.length = some vs :=
  readBytes_eq_some_iff.2 ⟨rfl, fun i hi => by simp [memRead_writeBytes h, hi]⟩

@[simp] theorem readBytes_deliver (s : State) (r : Result) (b a n : Nat) :
    readBytes (s.deliver r) b a n = readBytes s b a n :=
  readBytes_congr fun i _ _ => memRead_deliver s r b i

/-- On overflow ENC delivers 0 and accesses nothing (R127). -/
theorem doEncode_of_overflow {f : Format} {v : Nat} (h0 : encodedLength f v = 0) (b o : Nat) (s : State) :
    doEncode f v b o s = .next (s.deliver (.len 0)) := by
  rw [doEncode, h0]; rfl

/-- With room for the encoding, ENC writes it and delivers its length (R126). -/
theorem doEncode_of_room {f : Format} {v b o : Nat} {s : State} (hroom : o + encodedLength f v ≤ s.bufLen b) :
    ∃ u, writeBytes s b o (canonical f v) = some u ∧ doEncode f v b o s = .next (u.deliver (.len (encodedLength f v))) := by
  obtain ⟨u, hu⟩ := Option.isSome_iff_exists.1 <|
    (writeBytes_isSome_iff s b (canonical f v) o).2 (.inr (by rwa [length_canonical]))
  exact ⟨u, hu, by rw [doEncode_eq_effect, hu]; rfl⟩

/-- What ENC leaves with room for the encoding: the bytes of `pack` at `offset`, and all else as it was (R126, R128). -/
theorem doEncode_in_bounds {f : Format} {v b o : Nat} {s : State} (hroom : o + encodedLength f v ≤ s.bufLen b) :
    ∃ t, doEncode f v b o s = .next t ∧
      t.results = s.results ++ [.len (encodedLength f v)] ∧
      readBytes t b o (encodedLength f v) = some (pack f (encodedLength f v) v) ∧
      (∀ c a, ¬(c = b ∧ o ≤ a ∧ a < o + encodedLength f v) → memRead t c a = memRead s c a) ∧
      (∀ c, t.bufLen c = s.bufLen c) ∧ t.moves = s.moves ∧ t.provided = s.provided := by
  obtain ⟨u, hu, hnext⟩ := doEncode_of_room hroom
  obtain ⟨hmoves, hresults, hprovided, hlen⟩ := writeBytes_fields hu
  have hbytes := readBytes_writeBytes hu
  have hread := memRead_writeBytes hu
  rw [length_canonical] at hbytes hread
  refine ⟨_, hnext, ?results, (readBytes_deliver ..).trans hbytes, ?frame, hlen, hmoves, hprovided⟩
  case results => rw [State.deliver_results, hresults]
  case frame => exact fun c a hout => (hread c a).trans (if_neg hout)

/-- Settles O16: ENC.A is the shared operation at Format A. -/
theorem encAWritesThePackedBytes : Obligations.EncAWritesThePackedBytes := fun v b o s =>
  ⟨decode_code_encA v b o, fun h0 => doEncode_of_overflow (f := .A) h0 b o s,
    fun _ hroom => doEncode_in_bounds (f := .A) hroom⟩

/-- Settles O17: ENC.B is the shared operation at Format B. -/
theorem encBWritesThePackedBytes : Obligations.EncBWritesThePackedBytes := fun v b o s =>
  ⟨decode_code_encB_of_value v b o, fun h0 => doEncode_of_overflow (f := .B) h0 b o s,
    fun _ hroom => doEncode_in_bounds (f := .B) hroom⟩

end Sys2Proof.Machine
end

section
/-! PROOFS. The decoded length (42_decoded_length.md R150 to R152).

`extract` is stated by slices of byte 0 for both formats (`extract_selector_eq_slice`, `extract_p0_eq_slice`), and DLEN on a readable
byte once for both (`execDlen_of_readable`); what remains of each instruction is its table of first bytes. -/

namespace Sys2Proof.Machine

/-! ## `extract` by slices (R150) -/

/-- The header bits and the payload bits of byte 0 make up its eight bits. -/
theorem seven_add_one_eq_header_split (f : Format) : 7 + 1 = (8 - f.headerBits) + f.headerBits := by cases f <;> rfl

/-- The selector is the header bits: the shift brings nothing else down, since byte 0 has no bit above them. -/
theorem extract_selector_eq_slice (f : Format) (b0 : Byte) :
    (extract f b0).selector = slice b0.toNat 7 (8 - f.headerBits) := by
  have hsel : b0.toNat / 2 ^ (8 - f.headerBits) < 2 ^ f.headerBits :=
    Nat.div_lt_of_lt_mul (by rw [← Nat.pow_add, ← seven_add_one_eq_header_split]; exact b0.isLt)
  rw [slice_eq_div_mod (seven_add_one_eq_header_split f), Nat.mod_eq_of_lt hsel]
  exact Nat.shiftRight_eq_div_pow ..

theorem extract_p0_eq_slice (f : Format) (b0 : Byte) : (extract f b0).p0 = slice b0.toNat (7 - f.headerBits) 0 := by
  have hwidth : 7 - f.headerBits + 1 = 0 + (8 - f.headerBits) := by cases f <;> rfl
  rw [slice_eq_div_mod hwidth, Nat.pow_zero, Nat.div_one]
  exact Nat.and_two_pow_sub_one_eq_mod ..

/-- Byte 0 is its selector and its first payload bits put together. -/
theorem extract_recompose (f : Format) (b0 : Byte) :
    b0.toNat = (extract f b0).selector * 2 ^ (8 - f.headerBits) + (extract f b0).p0 := by
  simp only [extract, Nat.shiftRight_eq_div_pow, Nat.and_two_pow_sub_one_eq_mod]
  exact (Nat.div_add_mod' ..).symm

/-- Settles O23: the two parts of byte 0 are its slices, and every selector names a length of the format. -/
theorem extractSplitsTheFirstByte : Obligations.ExtractSplitsTheFirstByte := fun f b0 =>
  ⟨extract_selector_eq_slice f b0, rfl, extract_p0_eq_slice f b0, extract_len_pos f b0, extract_len_le_maxBytes f b0,
    extract_recompose f b0⟩

/-! ## DLEN (R151 to R153) -/

/-- Where byte 0 is readable, DLEN delivers the length that its header bits name, and asks for no later byte. -/
theorem execDlen_of_readable {s : State} {b o : Nat} {b0 : Byte} (f : Format) (h0 : memRead s b o = some b0) :
    exec (dlenOf f b o) s = .next (s.deliver (.len (slice b0.toNat 7 (8 - f.headerBits) + 1))) := by
  rw [execDlen_eq, doDecodedLength_eq_deliver, h0, ← extract_selector_eq_slice]
  rfl

/-- The first bytes of each length of Format A (R151): the header bits are the quotient of byte 0 by 64. -/
theorem slice_header_A_thresholds (b0 : Byte) : slice b0.toNat 7 6 + 1 =
    if b0.toNat ≤ 0x3F then 1 else if b0.toNat ≤ 0x7F then 2 else if b0.toNat ≤ 0xBF then 3 else 4 := by
  have hbyte := b0.isLt
  rw [slice_eq_div_mod (w := 2) rfl]
  split_ifs <;> omega

/-- The first bytes of each length of Format B (R152): the header bit is the quotient of byte 0 by 128. -/
theorem slice_header_B_thresholds (b0 : Byte) :
    slice b0.toNat 7 7 + 1 = if b0.toNat ≤ 0x7F then 1 else 2 := by
  have hbyte := b0.isLt
  rw [slice_eq_div_mod (w := 1) rfl]
  split_ifs <;> omega

/-- Settles O21: DLEN.A on a readable byte, with the first bytes of each length. -/
theorem dlenAReturnsTheLength : Obligations.DlenAReturnsTheLength := fun v b o _ b0 =>
  ⟨decode_code_dlenA v b o, fun h0 => ⟨execDlen_of_readable .A h0, slice_header_A_thresholds b0⟩⟩

/-- Settles O22: DLEN.B on a readable byte, with the first bytes of each length. -/
theorem dlenBReturnsTheLength : Obligations.DlenBReturnsTheLength := fun v b o _ b0 =>
  ⟨decode_code_dlenB v b o, fun h0 => ⟨execDlen_of_readable .B h0, slice_header_B_thresholds b0⟩⟩

end Sys2Proof.Machine
end

section
/-! PROOFS. `decode` (43_decode.md R170 to R178).

DEC on readable bytes is said once for both formats (`execDec_of_readable`), and so is what a form delivers in the terms of `extract`
and `assemble` (`exec_of_decodeWire`); the two deliver the same. -/

namespace Sys2Proof.Machine

/-! ## `assemble` (R170) -/

/-- Settles O28: by induction on the bytes, each of which moves what stands before it up by one digit. -/
theorem assembleIsPositional : Obligations.AssembleIsPositional := by
  intro p0 bytes
  induction bytes generalizing p0 with
  | nil => simp [bigEndian]
  | cons c cs ih =>
    have hweight (n : Nat) : 2 ^ (8 * n) = 256 ^ n := Nat.pow_mul ..
    calc assemble p0 (c :: cs) = (p0 * 256 + c.toNat) * 2 ^ (8 * cs.length) + bigEndian cs := by rw [assemble_cons, ih]
      _ = p0 * 2 ^ (8 * (c :: cs).length) + (c.toNat * 256 ^ cs.length + bigEndian cs) := by
        rw [hweight, hweight, List.length_cons]; ring
      _ = p0 * 2 ^ (8 * (c :: cs).length) + bigEndian (c :: cs) := rfl

/-- A last byte is one more step of the fold. -/
theorem assemble_concat (p0 : Nat) (cs : List Byte) (c : Byte) :
    assemble p0 (cs ++ [c]) = assemble p0 cs * 2 ^ 8 + c.toNat := by
  rw [assemble, List.foldl_append]
  exact fold_step ..

theorem assemble_one (p0 : Nat) (c1 : Byte) : assemble p0 [c1] = p0 * 256 + c1.toNat := by
  rw [assembleIsPositional]; simp [bigEndian]

theorem assemble_two (p0 : Nat) (c1 c2 : Byte) :
    assemble p0 [c1, c2] = p0 * 65536 + c1.toNat * 256 + c2.toNat := by
  rw [assembleIsPositional]; simp [bigEndian, Nat.add_assoc]

theorem assemble_three (p0 : Nat) (c1 c2 c3 : Byte) :
    assemble p0 [c1, c2, c3] = p0 * 16777216 + c1.toNat * 65536 + c2.toNat * 256 + c3.toNat := by
  rw [assembleIsPositional]; simp [bigEndian, Nat.add_assoc]

/-! ## DEC (R171 to R173) -/

/-- A read of one byte and a read of the rest, put together. -/
theorem readBytes_of_memRead {s : State} {b a n : Nat} {c : Byte} {cs : List Byte} (h : memRead s b a = some c)
    (hs : readBytes s b (a + 1) n = some cs) : readBytes s b a (n + 1) = some (c :: cs) := by
  rw [readBytes, h, hs]; rfl

/-- Where byte 0 and as many continuation bytes as its header bits name are readable, DEC delivers their value and length. -/
theorem execDec_of_readable {f : Format} {s : State} {b o n : Nat} {b0 : Byte} {rest : List Byte}
    (h0 : memRead s b o = some b0) (hlen : slice b0.toNat 7 (8 - f.headerBits) + 1 = n + 1)
    (hrest : readBytes s b (o + 1) n = some rest) :
    exec (decOf f b o) s =
      .next (s.deliver (decodedOf f (assemble (slice b0.toNat (7 - f.headerBits) 0) rest) (n + 1))) := by
  have hextract : (extract f b0).len = n + 1 := by rw [← hlen, ← extract_selector_eq_slice]; rfl
  refine execDec_of_decodeAt (decodeAt_eq_some_iff.2 ⟨b0, rest, h0, ?_, ?_⟩)
  · rwa [hextract]
  · rw [hextract, extract_p0_eq_slice]

/-- Settles O24: DEC on readable bytes, with one to three continuation bytes written out. -/
theorem decAReturnsValueAndLength : Obligations.DecAReturnsValueAndLength := by
  refine fun v b o s b0 => ⟨decode_code_decA v b o, fun h0 => ⟨fun hlen => ?one, fun c1 hlen h1 => ?two,
    fun c1 c2 hlen h1 h2 => ?three, fun c1 c2 c3 hlen h1 h2 h3 => ?four⟩⟩
  case one => exact execDec_of_readable (f := .A) h0 hlen rfl
  case two =>
    rw [← assemble_one]
    exact execDec_of_readable (f := .A) h0 hlen (readBytes_of_memRead h1 rfl)
  case three =>
    rw [← assemble_two]
    exact execDec_of_readable (f := .A) h0 hlen (readBytes_of_memRead h1 (readBytes_of_memRead h2 rfl))
  case four =>
    rw [← assemble_three]
    exact execDec_of_readable (f := .A) h0 hlen
      (readBytes_of_memRead h1 (readBytes_of_memRead h2 (readBytes_of_memRead h3 rfl)))

/-- Settles O25: DEC on readable bytes, with the one continuation byte written out. -/
theorem decBReturnsValueAndLength : Obligations.DecBReturnsValueAndLength := by
  refine fun v b o s b0 => ⟨decode_code_decB v b o, fun h0 => ⟨fun hlen => ?one, fun c1 hlen h1 => ?two⟩⟩
  case one => exact execDec_of_readable (f := .B) h0 hlen rfl
  case two =>
    rw [← assemble_one]
    exact execDec_of_readable (f := .B) h0 hlen (readBytes_of_memRead h1 rfl)

/-! ## DEC as the wire form it reads (R171, R174) -/

/-- The first payload bits of the bit drawings are `p0` of the arithmetic. -/
theorem toNat_payloadBitsA (b0 : Byte) : (payloadBitsA b0).toNat = slice b0.toNat 5 0 := BitVec.extractLsb'_toNat ..

theorem toNat_payloadBitsB (b0 : Byte) : (payloadBitsB b0).toNat = slice b0.toNat 6 0 := BitVec.extractLsb'_toNat ..

/-- A byte after a payload is one more step of the assembler: the concatenation of R74 against the fold of R170. -/
theorem toNat_append_byte {w p0 : Nat} {x : BitVec w} {cs : List Byte} (h : x.toNat = assemble p0 cs) (c : Byte) :
    (x ++ c).toNat = assemble p0 (cs ++ [c]) := by
  rw [toNat_append_eq, h, assemble_concat]

/-- A payload with a given number as its value is that number in the container. -/
theorem decodedA_of_toNat {w v : Nat} {x : BitVec w} (h : x.toNat = v) (n : Nat) :
    Result.decodedA ⟨x.setWidth 32, n⟩ = decodedOf .A v n := by
  rw [← h, ← BitVec.ofNat_toNat]; rfl

theorem decodedB_of_toNat {w v : Nat} {x : BitVec w} (h : x.toNat = v) (n : Nat) :
    Result.decodedB ⟨x.setWidth 16, n⟩ = decodedOf .B v n := by
  rw [← h, ← BitVec.ofNat_toNat]; rfl

/-- What the form that bytes present delivers, by the arithmetic: the assembled value of the bytes, and how many they are. -/
theorem exec_of_decodeWire {f : Format} {b0 : Byte} {rest : List Byte} {i : Instr}
    (h : decodeWire f (b0 :: rest) = .ok (i, [])) (s : State) :
    exec i s =
      .next (s.deliver (decodedOf f (assemble (slice b0.toNat (7 - f.headerBits) 0) rest) (rest.length + 1))) := by
  refine exec_eq_next_iff_effect.2 ?_
  cases f with
  | A =>
    obtain ⟨_, ⟨-, hb, rfl⟩ | ⟨c1, -, hb, rfl⟩ | ⟨c1, c2, -, hb, rfl⟩ | ⟨c1, c2, c3, -, hb, rfl⟩⟩ :=
      decodeWireA_cases (bytes := b0 :: rest) h
    all_goals
      obtain ⟨rfl, rfl⟩ := List.cons.inj hb
      rw [effect_of_no_write rfl, deliveredResult, decodedA_of_toNat]
      · rfl
    · exact toNat_payloadBitsA b0
    · exact toNat_append_byte (cs := []) (toNat_payloadBitsA b0) c1
    · exact toNat_append_byte (toNat_append_byte (cs := []) (toNat_payloadBitsA b0) c1) c2
    · exact toNat_append_byte (toNat_append_byte (toNat_append_byte (cs := []) (toNat_payloadBitsA b0) c1) c2) c3
  | B =>
    obtain ⟨_, ⟨-, hb, rfl⟩ | ⟨c1, -, hb, rfl⟩⟩ := decodeWireB_cases (bytes := b0 :: rest) h
    all_goals
      obtain ⟨rfl, rfl⟩ := List.cons.inj hb
      rw [effect_of_no_write rfl, deliveredResult, decodedB_of_toNat]
      · rfl
    · exact toNat_payloadBitsB b0
    · exact toNat_append_byte (cs := []) (toNat_payloadBitsB b0) c1

/-- Byte 0 of one whole encoding names as many continuation bytes as follow it (R75). -/
theorem slice_header_of_whole {f : Format} {b0 : Byte} {rest : List Byte} {i : Instr}
    (h : decodeWire f (b0 :: rest) = .ok (i, [])) : slice b0.toNat 7 (8 - f.headerBits) = rest.length := by
  obtain ⟨hle, hdrop⟩ := decodeWire_takes h
  exact hle.antisymm (List.drop_eq_nil_iff.1 hdrop.symm)

/-- Bytes that present a form begin with a byte 0. -/
theorem ne_nil_of_decodeWire {f : Format} {bytes tail : List Byte} {i : Instr} (h : decodeWire f bytes = .ok (i, tail)) :
    bytes ≠ [] := by
  rintro rfl
  cases f <;> cases h

/-- Settles O27: the bytes present a form, so DEC's footprint is exactly those bytes, and both deliver their assembled value. -/
theorem decIsTheWireFormItReads : Obligations.DecIsTheWireFormItReads := by
  intro f s b o n bytes i hread hdecode
  have hwire := decodeWire_of_whole hdecode
  obtain ⟨b0, rest, rfl⟩ := List.exists_cons_of_ne_nil (ne_nil_of_decodeWire hwire)
  obtain ⟨h0, hrest⟩ := readBytes_cons hread
  rw [exec_of_decodeWire hwire]
  exact execDec_of_readable h0 (congrArg (· + 1) (slice_header_of_whole hwire)) hrest

theorem decode_decCommand (f : Format) (b o : Nat) : decode (.command (decCommand f b o)) = .ok (decOf f b o) := by
  cases f <;> rfl

@[simp] theorem readBytes_withMoves (s : State) (ms : List HostMove) (b a n : Nat) :
    readBytes { s with moves := ms } b a n = readBytes s b a n :=
  readBytes_congr fun i _ _ => memRead_withMoves s ms b i

/-- Settles O7: the step runs the DEC that the command presents, and that DEC is the form it reads. -/
theorem stepRunsTheWireFormInTheBuffer : Obligations.StepRunsTheWireFormInTheBuffer := by
  intro f s b o n bytes rest i hmoves hread hdecode
  calc step s = exec (decOf f b o) { s with moves := rest } :=
        stepRunsTheIssuedCommand s _ rest _ hmoves (decode_decCommand f b o)
    _ = exec i { s with moves := rest } :=
        decIsTheWireFormItReads f _ b o n bytes i ((readBytes_withMoves ..).trans hread) hdecode

/-! ## The range of a decoded value (R176, R178) -/

theorem extract_p0_lt (f : Format) (b0 : Byte) : (extract f b0).p0 < 2 ^ (8 - f.headerBits) := by
  simp only [extract, Nat.and_two_pow_sub_one_eq_mod]
  exact Nat.mod_lt _ (Nat.two_pow_pos _)

/-- A decoded value is one that its length can hold: the first payload bits and the continuation bytes are all its bits. -/
theorem decodeAt_le_maxValueForLength {f : Format} {b o : Nat} {s : State} {value n : Nat}
    (h : decodeAt f b o s = some (value, n)) : value ≤ f.maxValueForLength n := by
  obtain ⟨b0, rest, -, hrest, heq⟩ := decodeAt_eq_some_iff.1 h
  obtain ⟨rfl, rfl⟩ := Prod.mk.inj heq
  have hpos := extract_len_pos f b0
  have hheader := headerBits_lt_of_pos f (Nat.le_refl 1)
  refine Nat.le_pred_of_lt ?_
  calc assemble (extract f b0).p0 rest < ((extract f b0).p0 + 1) * 256 ^ rest.length := assemble_lt ..
    _ ≤ 2 ^ (8 - f.headerBits) * 256 ^ rest.length := Nat.mul_le_mul_right _ (extract_p0_lt f b0)
    _ = 2 ^ (8 - f.headerBits + 8 * rest.length) := by rw [Nat.pow_add, Nat.pow_mul]
    _ = 2 ^ (8 * (extract f b0).len - f.headerBits) := by
      rw [readBytes_length hrest]; congr 1; omega

/-- Settles O29: the length that was read can hold the value, so the value's least length is no longer. -/
theorem decodedValuesStayInRange : Obligations.DecodedValuesStayInRange := by
  intro f b o s t h
  obtain ⟨value, n, hat, rfl⟩ := execDec_cases h
  obtain ⟨hpos, hle, hmax⟩ := decodeAt_inRange hat
  have hfits := decodeAt_le_maxValueForLength hat
  obtain ⟨⟨hlen, -, -⟩, hleast⟩ := encodedLength_isLeast hmax
  exact ⟨value, n, rfl, hpos, hle, hfits, hmax, hlen, hleast ⟨hpos, hle, hfits⟩⟩

end Sys2Proof.Machine
end

section
/-! PROOFS. Laws over the operations (44_laws_and_contracts.md R200 to R212).

`pack` and the decoder are inverse to each other: the bytes of `pack f len v` decode to `(v, len)` (`decodeAt_of_readBytes_pack`), and
bytes that decode to `(v, n)` are those of `pack f n v` (`readBytes_pack_of_decodeAt`). Both come from one equation, a byte string as the
number of its selector and its assembled value (`bigEndian_cons_eq_selector_add_assemble`), against the encoding as one number (R71). -/

namespace Sys2Proof.Machine

/-! ## Byte strings as numbers (R43, R71, R170) -/

/-- The quotient and the remainder of a number are the only two parts that make it up. -/
theorem mul_add_inj_of_lt {m a b x y : Nat} (hx : x < m) (hy : y < m) (h : a * m + x = b * m + y) : a = b ∧ x = y := by
  have ha := (Nat.div_mod_unique (a := a * m + x) (d := a) (c := x) (by omega)).2 ⟨by ring, hx⟩
  have hb := (Nat.div_mod_unique (a := b * m + y) (d := b) (c := y) (by omega)).2 ⟨by ring, hy⟩
  rw [h] at ha
  exact ⟨ha.1.symm.trans hb.1, ha.2.symm.trans hb.2⟩

theorem bigEndian_lt (bytes : List Byte) : bigEndian bytes < 256 ^ bytes.length := by
  have h := assemble_lt 0 bytes
  rwa [assembleIsPositional, Nat.zero_mul, Nat.zero_add, Nat.zero_add, Nat.one_mul] at h

/-- Byte strings of one length are the same where their numbers are. -/
theorem eq_of_bigEndian_eq {p q : List Byte} (hlen : p.length = q.length) (h : bigEndian p = bigEndian q) : p = q := by
  induction p generalizing q with
  | nil => exact (List.length_eq_zero_iff.1 hlen.symm).symm
  | cons b bs ih =>
    obtain ⟨c, cs, rfl⟩ := List.exists_cons_of_length_eq_add_one hlen.symm
    have htail : bs.length = cs.length := Nat.succ.inj hlen
    rw [bigEndian, bigEndian, ← htail] at h
    obtain ⟨hfirst, hrest⟩ := mul_add_inj_of_lt (bigEndian_lt bs) (htail ▸ bigEndian_lt cs) h
    rw [BitVec.eq_of_toNat_eq hfirst, ih htail hrest]

/-- Byte strings of one length stand in the order of their numbers. -/
theorem lt_of_bigEndian_lt {p q : List Byte} (hlen : p.length = q.length) (h : bigEndian p < bigEndian q) : p < q := by
  induction p generalizing q with
  | nil => rw [List.length_eq_zero_iff.1 hlen.symm] at h; exact absurd h (Nat.lt_irrefl _)
  | cons b bs ih =>
    obtain ⟨c, cs, rfl⟩ := List.exists_cons_of_length_eq_add_one hlen.symm
    have htail : bs.length = cs.length := Nat.succ.inj hlen
    rw [bigEndian, bigEndian, ← htail] at h
    have hcs : bigEndian cs < 256 ^ bs.length := htail ▸ bigEndian_lt cs
    rw [List.cons_lt_cons_iff]
    rcases Nat.lt_trichotomy b.toNat c.toNat with hlt | heq | hgt
    · exact .inl hlt
    · rw [heq] at h
      exact .inr ⟨BitVec.eq_of_toNat_eq heq, ih htail (Nat.lt_of_add_lt_add_left h)⟩
    · have := Nat.mul_le_mul_right (256 ^ bs.length) hgt
      rw [Nat.succ_mul] at this
      omega

/-! ## `pack` taken apart by `extract` and `assemble` (R71, R150, R170) -/

/-- The payload bits of `n` further bytes and of byte 0 are the bits of the encoding below the header. -/
theorem payload_width (f : Format) (n : Nat) : 8 * (n + 1) - f.headerBits = (8 - f.headerBits) + 8 * n := by
  cases f <;> simp <;> omega

theorem assemble_p0_lt (f : Format) (b0 : Byte) (rest : List Byte) :
    assemble (extract f b0).p0 rest < 2 ^ (8 * (rest.length + 1) - f.headerBits) :=
  calc assemble (extract f b0).p0 rest < ((extract f b0).p0 + 1) * 256 ^ rest.length := assemble_lt ..
    _ ≤ 2 ^ (8 - f.headerBits) * 256 ^ rest.length := Nat.mul_le_mul_right _ (extract_p0_lt f b0)
    _ = 2 ^ (8 * (rest.length + 1) - f.headerBits) := by rw [payload_width, Nat.pow_add, Nat.pow_mul]

/-- A byte string as one number: the selector of byte 0 above the assembled value. -/
theorem bigEndian_cons_eq_selector_add_assemble (f : Format) (b0 : Byte) (rest : List Byte) :
    bigEndian (b0 :: rest) =
      (extract f b0).selector * 2 ^ (8 * (rest.length + 1) - f.headerBits) + assemble (extract f b0).p0 rest := by
  rw [bigEndian, extract_recompose f b0, assembleIsPositional, payload_width, Nat.pow_add, Nat.pow_mul]
  ring

theorem bigEndian_pack {f : Format} {len v : Nat} (hpos : 1 ≤ len) (hle : len ≤ f.maxBytes)
    (hv : v ≤ f.maxValueForLength len) :
    bigEndian (pack f len v) = (len - 1) * 2 ^ (8 * len - f.headerBits) + v := by
  obtain ⟨heq, -, -, hbytes, -, -⟩ := packIsTheEncodingNumber f len v hpos hle hv _ rfl
  exact hbytes.trans heq

/-- Byte 0 of `pack` names the length, and the value is assembled from it and the other bytes (R200, R202). -/
theorem exists_pack_eq_cons {f : Format} {len v : Nat} (hpos : 1 ≤ len) (hle : len ≤ f.maxBytes)
    (hv : v ≤ f.maxValueForLength len) :
    ∃ b0 rest, pack f len v = b0 :: rest ∧ (extract f b0).len = len ∧ assemble (extract f b0).p0 rest = v := by
  have hsucc : (pack f len v).length = (len - 1) + 1 := by rw [pack_length, Nat.sub_add_cancel hpos]
  obtain ⟨b0, rest, hpack⟩ := List.exists_cons_of_length_eq_add_one hsucc
  have hlen : rest.length + 1 = len := by rw [← List.length_cons, ← hpack, pack_length]
  have hnumber := bigEndian_pack hpos hle hv
  rw [hpack, bigEndian_cons_eq_selector_add_assemble f, hlen] at hnumber
  obtain ⟨hselector, hvalue⟩ :=
    mul_add_inj_of_lt (hlen ▸ assemble_p0_lt f b0 rest) (lt_of_le_maxValueForLength hv) hnumber
  exact ⟨b0, rest, hpack, (congrArg (· + 1) hselector).trans (Nat.sub_add_cancel hpos), hvalue⟩

/-- A byte string whose byte 0 names its length is the encoding, at that length, of the value assembled from it (R77). -/
theorem pack_assemble {f : Format} {b0 : Byte} {rest : List Byte} (h : (extract f b0).len = rest.length + 1) :
    pack f (rest.length + 1) (assemble (extract f b0).p0 rest) = b0 :: rest := by
  have hle : rest.length + 1 ≤ f.maxBytes := h ▸ extract_len_le_maxBytes f b0
  have hselector : (extract f b0).selector = rest.length := Nat.succ.inj h
  refine eq_of_bigEndian_eq (pack_length ..) ?_
  rw [bigEndian_pack (Nat.succ_pos _) hle (Nat.le_pred_of_lt (assemble_p0_lt f b0 rest)),
    bigEndian_cons_eq_selector_add_assemble f, hselector]; rfl

/-! ## The decoder is the inverse of `pack` (R200) -/

theorem decodeAt_of_readBytes_pack {f : Format} {s : State} {b o len v : Nat} (hpos : 1 ≤ len) (hle : len ≤ f.maxBytes)
    (hv : v ≤ f.maxValueForLength len) (h : readBytes s b o len = some (pack f len v)) :
    decodeAt f b o s = some (v, len) := by
  obtain ⟨b0, rest, hpack, hlen, hvalue⟩ := exists_pack_eq_cons hpos hle hv
  exact decodeAt_footprint.2 ⟨b0, rest, by rw [hlen, h, hpack], by rw [hlen, hvalue]⟩

theorem readBytes_pack_of_decodeAt {f : Format} {s : State} {b o v n : Nat} (h : decodeAt f b o s = some (v, n)) :
    readBytes s b o n = some (pack f n v) := by
  obtain ⟨b0, rest, hread, heq⟩ := decodeAt_footprint.1 h
  obtain ⟨rfl, rfl⟩ := Prod.mk.inj heq
  have hlen : (extract f b0).len = rest.length + 1 := (readBytes_length hread).symm
  rw [hread, hlen, pack_assemble hlen]

/-- Where the canonical bytes of a value stand, DEC delivers the value and its encoded length. -/
theorem execDec_of_canonical {f : Format} {s : State} {b o v : Nat} (hmax : v ≤ f.absoluteMax)
    (h : readBytes s b o (encodedLength f v) = some (canonical f v)) :
    exec (decOf f b o) s = .next (s.deliver (decodedOf f v (encodedLength f v))) := by
  obtain ⟨⟨hpos, hle, hfits⟩, -⟩ := encodedLength_isLeast hmax
  exact execDec_of_decodeAt (decodeAt_of_readBytes_pack hpos hle hfits h)

/-! ## The round trip (R200) -/

theorem lt_containerWidth_of_le_absoluteMax {f : Format} {v : Nat} (h : v ≤ f.absoluteMax) : v < 2 ^ f.containerWidth :=
  h.trans_lt (by cases f <;> decide)

/-- Settles O30: ENC leaves the canonical bytes at the place, and DEC takes them apart wherever it finds them. -/
theorem roundTripThroughTheBuffer : Obligations.RoundTripThroughTheBuffer := by
  intro f v b o s hmax hroom
  obtain ⟨t, ht, -, hbytes, -, -, -, -⟩ := doEncode_in_bounds (f := f) hroom
  refine ⟨t, (execEnc_eq (lt_containerWidth_of_le_absoluteMax hmax)).trans ht, fun u hsame => ?_⟩
  obtain ⟨hlen, hread⟩ := readBytes_eq_some_iff.1 hbytes
  exact execDec_of_canonical hmax (readBytes_eq_some_iff.2 ⟨hlen, fun i hi => (hsame i hi).trans (hread i hi)⟩)

/-! ## Values back to back (R205) -/

/-- Two stretches of bytes that meet are read as one. -/
theorem readBytes_append_iff {s : State} {b o : Nat} {p q : List Byte} :
    readBytes s b o (p.length + q.length) = some (p ++ q) ↔
      readBytes s b o p.length = some p ∧ readBytes s b (o + p.length) q.length = some q := by
  induction p generalizing o with
  | nil => simp [readBytes]
  | cons c cs ih =>
    have hcons (n : Nat) (bytes : List Byte) : readBytes s b o (n + 1) = some (c :: bytes) ↔
        memRead s b o = some c ∧ readBytes s b (o + 1) n = some bytes := by
      simp [readBytes, Option.bind_eq_some_iff]
    rw [List.length_cons, Nat.succ_add, List.cons_append, hcons, hcons, ih, and_assoc, Nat.add_assoc, Nat.add_comm 1]

theorem length_flatMap_canonical (f : Format) (vs : List Nat) : (vs.flatMap (canonical f)).length = totalLength f vs := by
  induction vs with
  | nil => rfl
  | cons v vs ih => rw [List.flatMap_cons, List.length_append, length_canonical, ih, totalLength]

/-- The encodings of a list of values stand back to back where the first stands and the others stand after it. -/
theorem readBytes_flatMap_canonical_cons {f : Format} {s : State} {b o v : Nat} {vs : List Nat} :
    readBytes s b o (totalLength f (v :: vs)) = some ((v :: vs).flatMap (canonical f)) ↔
      readBytes s b o (encodedLength f v) = some (canonical f v) ∧
      readBytes s b (o + encodedLength f v) (totalLength f vs) = some (vs.flatMap (canonical f)) := by
  rw [totalLength, List.flatMap_cons, ← length_canonical, ← length_flatMap_canonical, readBytes_append_iff]

theorem decode_encCommand {f : Format} {v : Nat} (hv : v < 2 ^ f.containerWidth) (b o : Nat) :
    decode (.command (encCommand f v b o)) = .ok (encOf f v b o) := by
  cases f with
  | A => rfl
  | B =>
    have hfield : BitVec.ofNat 32 v = (BitVec.ofNat 16 v).setWidth 32 := by
      rw [Format.containerWidth_B] at hv
      exact BitVec.eq_of_toNat_eq (by simp; omega)
    rw [encCommand, hfield]
    exact decode_code_encB_of_value _ b o

theorem run_succ_of_step {M : Host.Core} {s t : M.State} (h : M.step s = .next t) (n : Nat) :
    M.run (n + 1) s = M.run n t := by
  rw [Host.Core.run, h]

/-- A run of `m` moves that goes on is the start of every longer run. -/
theorem run_add {M : Host.Core} {m : Nat} {s t : M.State} (h : M.run m s = .next t) (n : Nat) :
    M.run (m + n) s = M.run n t := by
  induction m generalizing s with
  | zero =>
    cases h
    rw [Nat.zero_add]
  | succ m ih =>
    rw [Host.Core.run] at h
    cases hstep : M.step s with
    | next u =>
      rw [hstep] at h
      rw [Nat.add_right_comm, run_succ_of_step hstep, ih h]
    | fault r => rw [hstep] at h; cases h
    | refused r => rw [hstep] at h; cases h

/-- What the ENC commands of a list of values leave: all lengths delivered, the encodings back to back, all other bytes as they
were. -/
theorem run_packingMoves {f : Format} {b o : Nat} {vs : List Nat} {s : State} {ms : List HostMove}
    (hmax : ∀ v ∈ vs, v ≤ f.absoluteMax) (hroom : o + totalLength f vs ≤ s.bufLen b)
    (hmoves : s.moves = packingMoves f b o vs ++ ms) :
    ∃ t, Host.Core.run core vs.length s = .next t ∧ t.moves = ms ∧
      t.results = s.results ++ vs.map (fun v => .len (encodedLength f v)) ∧
      readBytes t b o (totalLength f vs) = some (vs.flatMap (canonical f)) ∧
      ∀ c a, ¬(c = b ∧ o ≤ a ∧ a < o + totalLength f vs) → memRead t c a = memRead s c a := by
  induction vs generalizing o s with
  | nil => exact ⟨s, rfl, hmoves, (List.append_nil _).symm, rfl, fun _ _ _ => rfl⟩
  | cons v vs ih =>
    obtain ⟨hv, hvs⟩ := List.forall_mem_cons.1 hmax
    have hcontainer := lt_containerWidth_of_le_absoluteMax hv
    rw [totalLength] at hroom
    have hstep := (stepRunsTheIssuedCommand s _ _ _ hmoves (decode_encCommand hcontainer b o)).trans
      (execEnc_eq hcontainer)
    obtain ⟨u, hu, huResults, huBytes, huFrame, huLen, huMoves, -⟩ :=
      doEncode_in_bounds (f := f) (v := v) (b := b) (o := o) (s := { s with moves := packingMoves f b _ vs ++ ms })
        (by rw [State.bufLen_withMoves]; omega)
    obtain ⟨t, ht, htMoves, htResults, htBytes, htFrame⟩ :=
      ih hvs (o := o + encodedLength f v) (s := u) (by rw [huLen, State.bufLen_withMoves]; omega) huMoves
    refine ⟨t, (run_succ_of_step (M := core) (hstep.trans hu) _).trans ht, htMoves, ?results, ?bytes, fun c a hout => ?frame⟩
    case results => rw [htResults, huResults, List.append_assoc]; rfl
    case bytes =>
      have hkept : readBytes t b o (encodedLength f v) = readBytes u b o (encodedLength f v) :=
        readBytes_congr fun a _ hlt => htFrame b a (by omega)
      exact readBytes_flatMap_canonical_cons.2 ⟨hkept.trans huBytes, htBytes⟩
    case frame =>
      rw [totalLength] at hout
      exact (htFrame c a (by omega)).trans (huFrame c a (by omega))

/-- What the DEC commands of as many encodings do: they deliver all values with their lengths, and nothing else. -/
theorem run_unpackingMoves {f : Format} {b o : Nat} {vs : List Nat} {s : State} {ms : List HostMove}
    (hmax : ∀ v ∈ vs, v ≤ f.absoluteMax) (hmoves : s.moves = unpackingMoves f b o vs ++ ms)
    (hbytes : readBytes s b o (totalLength f vs) = some (vs.flatMap (canonical f))) :
    Host.Core.run core vs.length s =
      .next { s with moves := ms, results := s.results ++ vs.map fun v => decodedOf f v (encodedLength f v) } := by
  induction vs generalizing o s with
  | nil =>
    rw [List.map_nil, List.append_nil, ← show s.moves = ms from hmoves]
    rfl
  | cons v vs ih =>
    obtain ⟨hv, hvs⟩ := List.forall_mem_cons.1 hmax
    obtain ⟨hfirst, hrest⟩ := readBytes_flatMap_canonical_cons.1 hbytes
    have hstep := (stepRunsTheIssuedCommand s _ _ _ hmoves (decode_decCommand f b o)).trans
      (execDec_of_canonical hv ((readBytes_withMoves ..).trans hfirst))
    refine ((run_succ_of_step (M := core) hstep _).trans
      (ih hvs rfl (((readBytes_deliver ..).trans (readBytes_withMoves ..)).trans hrest))).trans ?_
    simp

/-- Settles O34: the ENC commands leave the encodings back to back, from which the DEC commands deliver the values. -/
theorem sequentialPackingComesBackInOrder : Obligations.SequentialPackingComesBackInOrder := by
  intro f b o vs s hmax hroom hmoves
  obtain ⟨t, ht, htMoves, htResults, htBytes, htFrame⟩ := run_packingMoves hmax hroom hmoves
  have hunpack := run_unpackingMoves (ms := []) hmax (htMoves.trans (List.append_nil _).symm) htBytes
  have hrun := (run_add ht vs.length).trans hunpack
  rw [← Nat.two_mul] at hrun
  refine ⟨_, hrun, rfl, by rw [htResults], ?_, htFrame⟩
  refine Eq.trans ?_ htBytes
  exact readBytes_congr fun a _ _ => memRead_congr rfl b a

/-! ## Overflow (R203) and the boundary lengths (R207, R208) -/

theorem execElen_eq {f : Format} {v : Nat} {s : State} (hv : v < 2 ^ f.containerWidth) :
    exec (elenOf f v) s = .next (s.deliver (.len (encodedLength f v))) := by
  cases f with
  | A =>
    rw [Format.containerWidth_A] at hv
    rw [elenOf, exec_elenA, BitVec.toNat_ofNat, Nat.mod_eq_of_lt hv]
  | B =>
    rw [Format.containerWidth_B] at hv
    rw [elenOf, exec_elenB, BitVec.toNat_ofNat, Nat.mod_eq_of_lt hv]

/-- ENC completes exactly where its bytes can be written, and delivers the encoded length after them. -/
theorem doEncode_eq_next_iff {f : Format} {v b o : Nat} {s t : State} :
    doEncode f v b o s = .next t ↔
      ∃ u, writeBytes s b o (canonical f v) = some u ∧ t = u.deliver (.len (encodedLength f v)) := by
  rw [doEncode_eq_effect]
  cases writeBytes s b o (canonical f v) <;> simp [eq_comm]

theorem doEncode_results {f : Format} {v b o : Nat} {s t : State} (h : doEncode f v b o s = .next t) :
    t.results = s.results ++ [.len (encodedLength f v)] := by
  obtain ⟨u, hu, rfl⟩ := doEncode_eq_next_iff.1 h
  obtain ⟨-, hresults, -, -⟩ := writeBytes_fields hu
  rw [State.deliver_results, hresults]

/-- Settles O18: both operations deliver the encoded length, which is 0 exactly above the format's maximum; and then ENC writes
nothing. -/
theorem overflowIsSignalledByZero : Obligations.OverflowIsSignalledByZero := by
  intro f v b o s hv
  rw [execElen_eq hv, execEnc_eq hv]
  refine ⟨fun hover => ?_, ⟨fun ⟨t, ht, hzero⟩ => ⟨_, rfl, ?_⟩, fun ⟨t, ht, hzero⟩ => ?_⟩⟩
  · have h0 := (encodedLength_eq_zero_iff f v).2 hover
    exact ⟨by rw [h0]; rfl, doEncode_of_overflow h0 b o s⟩
  · exact (doEncode_results ht).symm.trans hzero
  · cases ht
    have h0 : encodedLength f v = 0 := by simpa using hzero
    exact ⟨_, doEncode_of_overflow h0 b o s, rfl⟩

/-- Settles O15: the encoded length evaluated at each boundary. -/
theorem boundaryLengthsAreExact : Obligations.BoundaryLengthsAreExact := by
  refine fun s => ⟨fun p hp => ?_, fun p hp => ?_⟩
  · have hlen : encodedLength .A (BitVec.ofNat 32 p.1).toNat = p.2 := by revert p; decide
    rw [exec_elenA, hlen]; rfl
  · have hlen : encodedLength .B (BitVec.ofNat 16 p.1).toNat = p.2 := by revert p; decide
    rw [exec_elenB, hlen]; rfl

/-! ## The self-describing length (R202) -/

/-- Settles O31: both operations read the length from byte 0, and `pack` puts it there. -/
theorem lengthIsSelfDescribing : Obligations.LengthIsSelfDescribing := by
  refine ⟨fun f b o s t h => ?_, fun f len v hpos hle hv => ?_⟩
  · obtain ⟨v, n, hat, rfl⟩ := execDec_cases h
    obtain ⟨b0, rest, h0, -, heq⟩ := decodeAt_eq_some_iff.1 hat
    obtain ⟨rfl, rfl⟩ := Prod.mk.inj heq
    exact ⟨_, _, rfl, by rw [execDlen_eq, doDecodedLength, h0]; rfl⟩
  · obtain ⟨b0, rest, hpack, hlen, -⟩ := exists_pack_eq_cons hpos hle hv
    exact ⟨b0, rest, hpack, hlen⟩

/-! ## Independence of the place and of the rest of the state (R204, R206) -/

/-- The bytes ENC leaves at its place are the canonical encoding, and those before it are as they were. -/
theorem memRead_doEncode {f : Format} {v b o : Nat} {s t : State} (h : doEncode f v b o s = .next t) :
    (∀ i, i < encodedLength f v → memRead t b (o + i) = (canonical f v)[i]?) ∧
    ∀ a, a < o → memRead t b a = memRead s b a := by
  obtain ⟨u, hu, rfl⟩ := doEncode_eq_next_iff.1 h
  refine ⟨fun i hi => ?_, fun a ha => ?_⟩
  · simp [memRead_writeBytes hu, length_canonical, hi]
  · simp [memRead_writeBytes hu, Nat.not_le.2 ha]

/-- The same bytes at another place are read as the same bytes. -/
theorem readBytes_of_same_bytes {s s' : State} {b o b' o' n : Nat} {bytes : List Byte}
    (h : readBytes s b o n = some bytes) (hsame : ∀ i, i < n → memRead s' b' (o' + i) = memRead s b (o + i)) :
    readBytes s' b' o' n = some bytes := by
  obtain ⟨hlen, hread⟩ := readBytes_eq_some_iff.1 h
  exact readBytes_eq_some_iff.2 ⟨hlen, fun i hi => (hsame i hi).trans (hread i hi)⟩

theorem readSpan_decOf (f : Format) (s : State) (b o : Nat) : readSpan s (decOf f b o) = decodeSpan f s b o := by
  cases f <;> rfl

/-- Where the decoder answers, its footprint is as long as the length it reads. -/
theorem decodeSpan_count_of_decodeAt {f : Format} {s : State} {b o v n : Nat} (h : decodeAt f b o s = some (v, n)) :
    (decodeSpan f s b o).count = n := by
  obtain ⟨b0, rest, h0, -, heq⟩ := decodeAt_eq_some_iff.1 h
  obtain ⟨-, rfl⟩ := Prod.mk.inj heq
  rw [decodeSpan, h0]

/-- The decoder answers the same at another place with the same footprint bytes. -/
theorem decodeAt_of_same_bytes {f : Format} {s s' : State} {b o b' o' v n : Nat} (h : decodeAt f b o s = some (v, n))
    (hsame : ∀ i, i < n → memRead s' b' (o' + i) = memRead s b (o + i)) : decodeAt f b' o' s' = some (v, n) := by
  obtain ⟨hpos, hle, -⟩ := decodeAt_inRange h
  exact decodeAt_of_readBytes_pack hpos hle (decodeAt_le_maxValueForLength h)
    (readBytes_of_same_bytes (readBytes_pack_of_decodeAt h) hsame)

/-- Settles O32: ENC by the bytes it leaves; DLEN and DEC because they answer the same at any place with the same bytes. -/
theorem operationsAreOffsetIndependent : Obligations.OperationsAreOffsetIndependent := by
  refine fun f b o b' o' s s' t => ⟨fun v t' hv h h' => ?enc, fun h h0 => ?dlen, fun h hsame => ?dec⟩
  case enc =>
    rw [execEnc_eq hv] at h h'
    obtain ⟨hbytes, hbefore⟩ := memRead_doEncode h
    obtain ⟨hbytes', -⟩ := memRead_doEncode h'
    exact ⟨⟨_, doEncode_results h, doEncode_results h'⟩, fun i hi => ⟨hbytes i hi, hbytes' i hi⟩, hbefore⟩
  case dlen =>
    rw [execDlen_eq] at h
    obtain ⟨b0, hread, rfl⟩ := doDecodedLength_cases h
    exact ⟨_, rfl, by rw [execDlen_eq, doDecodedLength, h0, hread]; rfl⟩
  case dec =>
    obtain ⟨v, n, hat, rfl⟩ := execDec_cases h
    rw [readSpan_decOf, decodeSpan_count_of_decodeAt hat] at hsame
    exact ⟨_, rfl, execDec_of_decodeAt (decodeAt_of_same_bytes hat hsame)⟩

/-- Settles O33: the result is a function of the bytes read, and the bytes written are fixed by the operands. -/
theorem outcomeDependsOnTheFootprintOnly : Obligations.OutcomeDependsOnTheFootprintOnly := by
  intro i s s' t h hpre hsame
  obtain ⟨t', h'⟩ := exec_completes hpre
  obtain ⟨r, u, hr, hu, rfl⟩ := exec_eq_next_iff.1 h
  obtain ⟨r', u', hr', hu', rfl⟩ := exec_eq_next_iff.1 h'
  obtain rfl : r' = r := Option.some.inj (by rw [← hr', ← hr, deliveredResult_congr hsame])
  refine ⟨r', _, h', by rw [State.deliver_results, results_writeEffect hu],
    by rw [State.deliver_results, results_writeEffect hu'], fun b a hw => ?_,
    fun b a hw => memRead_exec_of_not_written h' hw⟩
  rw [memRead_exec h', memRead_exec h, if_pos hw, if_pos hw]

/-! ## Encoding again (R209) -/

theorem canonical_eq_pack_iff {f : Format} {v n : Nat} : canonical f v = pack f n v ↔ encodedLength f v = n := by
  constructor
  · intro h
    rw [← length_canonical, h, pack_length]
  · rintro rfl
    rfl

/-- Settles O35: the bytes DEC read are those of `pack` at the length it read, which is the canonical one or a longer one. -/
theorem reencodingGivesTheSameBytesIffCanonical : Obligations.ReencodingGivesTheSameBytesIffCanonical := by
  intro f b o s t h
  obtain ⟨v, n, hat, rfl⟩ := execDec_cases h
  obtain ⟨hpos, hle, hmax⟩ := decodeAt_inRange hat
  obtain ⟨⟨hlen, -, -⟩, hleast⟩ := encodedLength_isLeast hmax
  exact ⟨v, n, pack f n v, rfl, readBytes_pack_of_decodeAt hat, Nat.ne_of_gt hlen,
    hleast ⟨hpos, hle, decodeAt_le_maxValueForLength hat⟩, canonical_eq_pack_iff⟩

/-! ## No encoding begins another, and their order (R212) -/

/-- A whole encoding followed by more bytes is not a whole encoding: byte 0 names one length. -/
theorem eq_nil_of_whole_append {f : Format} {p q : List Byte} {i j : Instr} (hp : decodeWire f p = .ok (i, []))
    (hpq : decodeWire f (p ++ q) = .ok (j, [])) : q = [] := by
  obtain ⟨b0, rest, rfl⟩ := List.exists_cons_of_ne_nil (ne_nil_of_decodeWire hp)
  have hlen : rest.length = (rest ++ q).length := (slice_header_of_whole hp).symm.trans (slice_header_of_whole hpq)
  rw [List.length_append] at hlen
  exact List.length_eq_zero_iff.1 (Nat.left_eq_add.1 hlen)

theorem encodedLength_mono {f : Format} {u v : Nat} (huv : u ≤ v) (hmax : v ≤ f.absoluteMax) :
    encodedLength f u ≤ encodedLength f v := by
  obtain ⟨⟨hpos, hle, hfits⟩, -⟩ := encodedLength_isLeast hmax
  obtain ⟨-, hleast⟩ := encodedLength_isLeast (huv.trans hmax)
  exact hleast ⟨hpos, hle, huv.trans hfits⟩

/-- Of two first bytes, the one that names the shorter length is the smaller. -/
theorem toNat_lt_of_extract_len_lt {f : Format} {b0 c0 : Byte} (h : (extract f b0).len < (extract f c0).len) :
    b0.toNat < c0.toNat := by
  refine Nat.lt_of_not_le fun hle => absurd h (Nat.not_lt.2 (Nat.succ_le_succ ?_))
  rw [Nat.shiftRight_eq_div_pow, Nat.shiftRight_eq_div_pow]
  exact Nat.div_le_div_right hle

/-- A shorter encoding comes before a longer one, whatever the values: byte 0 decides. -/
theorem pack_lt_pack_of_len_lt {f : Format} {m n u v : Nat} (hpos : 1 ≤ m) (hmn : m < n) (hle : n ≤ f.maxBytes)
    (hu : u ≤ f.maxValueForLength m) (hv : v ≤ f.maxValueForLength n) : pack f m u < pack f n v := by
  obtain ⟨b0, bs, hb, hblen, -⟩ := exists_pack_eq_cons hpos (hmn.le.trans hle) hu
  obtain ⟨c0, cs, hc, hclen, -⟩ := exists_pack_eq_cons (hpos.trans hmn.le) hle hv
  rw [hb, hc, List.cons_lt_cons_iff]
  exact .inl (toNat_lt_of_extract_len_lt (hblen.trans_lt (hmn.trans_eq hclen.symm)))

/-- Encodings of one length stand in the order of their values. -/
theorem pack_lt_pack_of_lt {f : Format} {n u v : Nat} (hpos : 1 ≤ n) (hle : n ≤ f.maxBytes) (huv : u < v)
    (hv : v ≤ f.maxValueForLength n) : pack f n u < pack f n v := by
  refine lt_of_bigEndian_lt (by rw [pack_length, pack_length]) ?_
  rw [bigEndian_pack hpos hle (huv.le.trans hv), bigEndian_pack hpos hle hv]
  exact Nat.add_lt_add_left huv _

/-- Settles O36: byte 0 names the whole length; and a greater value has a longer canonical encoding, or one of the same length. -/
theorem encodingsArePrefixFreeAndOrdered : Obligations.EncodingsArePrefixFreeAndOrdered := by
  refine ⟨fun f p q i j hp hpq => eq_nil_of_whole_append (decodeWire_of_whole hp) (decodeWire_of_whole hpq),
    fun f u v huv hmax => ?_⟩
  obtain ⟨⟨hposU, -, hfitsU⟩, -⟩ := encodedLength_isLeast (huv.le.trans hmax)
  obtain ⟨⟨hposV, hleV, hfitsV⟩, -⟩ := encodedLength_isLeast hmax
  rcases (encodedLength_mono huv.le hmax).lt_or_eq with hlt | heq
  · exact pack_lt_pack_of_len_lt hposU hlt hleV hfitsU hfitsV
  · rw [canonical, canonical, heq]
    exact pack_lt_pack_of_lt hposV hleV huv hfitsV

end Sys2Proof.Machine
end

section
/-! PROOFS. The host's side of a run, and reset (70_reset_and_hazards.md R260, R261, R273 to R275).

One equation says what `step` does for each kind of move: `step_of_idle`, `step_of_provide` and `step_of_write` here, beside
`step_of_issue`. What a hand-over leaves is `State.bufLen_provide` and `memRead_provide`. -/

namespace Sys2Proof.Machine

/-! ## One move a step (R274) -/

/-- A step that goes on leaves the moves after the first one, and none where none was left. -/
theorem moves_of_step {s t : State} (h : step s = .next t) : t.moves = s.moves.tail := by
  rcases step_cases h with ⟨hm, rfl⟩ | ⟨b, len, rest, hm, rfl⟩ | ⟨b, i, v, rest, hm, hw⟩ | ⟨c, rest, i, hm, -, he⟩
  · rw [hm, List.tail_nil]
  · rw [State.provide_moves, hm, List.tail_cons]
  · obtain ⟨hkept, -, -⟩ := memWrite_fields hw
    rw [hkept, hm, List.tail_cons]
  · obtain ⟨-, hkept, -, -⟩ := eachOperationDeliversOneResult i _ t he
    rw [hkept, hm, List.tail_cons]

/-- Settles O10: the moves after the first are the rest of the list. -/
theorem stepTakesOneMove : Obligations.StepTakesOneMove := by
  intro s t m rest hmoves hstep
  rw [moves_of_step hstep, hmoves, List.tail_cons]

/-! ## The moves that are no command (R261, R275) -/

theorem step_of_idle {s : State} (h : s.moves = []) : step s = .next s := by
  rw [step, h]

theorem step_of_provide {s : State} {b len : Nat} {rest : List HostMove} (h : s.moves = .provide b len :: rest) :
    step s = .next (State.provide { s with moves := rest } b len) := by
  rw [step, h]; rfl

theorem hostWrite_eq (b i : Nat) (v : Byte) (s : State) :
    hostWrite b i v s = (memWrite s b i v).elim (.refused .hostOutOfBounds) .next := by
  unfold hostWrite
  cases memWrite s b i v <;> rfl

theorem step_of_write {s : State} {b i : Nat} {v : Byte} {rest : List HostMove} (h : s.moves = .write b i v :: rest) :
    step s = (memWrite { s with moves := rest } b i v).elim (.refused .hostOutOfBounds) .next := by
  rw [step, h]; exact hostWrite_eq ..

theorem State.bufLen_provide (s : State) (b len c : Nat) :
    (s.provide b len).bufLen c = if c = b then len else s.bufLen c := by
  rw [State.bufLen, State.provide_buffers]
  split_ifs with hc
  · rw [hc, tableGet_tableSet_same]
  · rw [tableGet_tableSet_other _ _ hc]; rfl

/-- A buffer just handed over holds its free bytes (R261), and the other buffers read as before. -/
theorem memRead_provide (s : State) (b len c i : Nat) :
    memRead (s.provide b len) c i =
      if c = b then if i < len then some (Config.initialByte s.provided i) else none else memRead s c i := by
  rw [memRead, State.provide_buffers]
  split_ifs with hc hi
  · rw [hc, tableGet_tableSet_same]; exact if_pos hi
  · rw [hc, tableGet_tableSet_same]; exact if_neg hi
  · rw [tableGet_tableSet_other _ _ hc]; rfl

/-- Settles O8: the equations of the moves, with what a hand-over and a byte's write leave to be read. -/
theorem hostMovesBetweenCommands : Obligations.HostMovesBetweenCommands := by
  refine ⟨fun s => step_of_idle, fun s b len rest hmoves => ?provide,
    fun s b i v rest hmoves => ⟨fun hin => ?written, fun hout => ?refused⟩⟩
  case provide =>
    refine ⟨_, step_of_provide hmoves, rfl, rfl, rfl, ?_, fun i hi => ?_, fun i hi => ?_, fun c hc => ⟨?_, fun i => ?_⟩⟩
    · rw [State.bufLen_provide, if_pos rfl]
    · rw [memRead_provide, if_pos rfl, if_pos hi]
    · rw [memRead_provide, if_pos rfl, if_neg (Nat.not_lt.2 hi)]
    · rw [State.bufLen_provide, if_neg hc, State.bufLen_withMoves]
    · rw [memRead_provide, if_neg hc, memRead_withMoves]
  case written =>
    obtain ⟨inBounds, -⟩ := memWriteSetsOneByte { s with moves := rest } b i v
    obtain ⟨-, t, ht, hbyte, hframe, hlen⟩ := inBounds hin
    obtain ⟨htMoves, htResults, htProvided⟩ := memWrite_fields ht
    exact ⟨t, by rw [step_of_write hmoves, ht]; rfl, htMoves, htResults, htProvided, hbyte, hlen, hframe⟩
  case refused =>
    obtain ⟨-, outOfBounds⟩ := memWriteSetsOneByte { s with moves := rest } b i v
    obtain ⟨-, hnone⟩ := outOfBounds hout
    rw [step_of_write hmoves, hnone]; rfl

/-! ## Reset (R260) -/

/-- Settles O44: there is no buffer and no result that could fail it. -/
theorem resetMeetsTheInvariant : Obligations.ResetMeetsTheInvariant where
  names := List.Pairwise.nil
  inOrder := List.forall_mem_nil _
  serials := List.Pairwise.nil
  results := List.forall_mem_nil _

theorem memRead_reset (b a : Nat) : memRead State.reset b a = none := rfl

/-- Settles O45: no buffer has a name, and a step with no move left changes nothing. -/
theorem resetIsIdleAndHoldsNothing : Obligations.ResetIsIdleAndHoldsNothing :=
  ⟨memRead_reset, rfl, rfl, step_of_idle rfl⟩

end Sys2Proof.Machine
end
